-- ==== Sys2Proof/Word.lean ====
section
/-! DEFINITION. The word types of the block (00_scope.md R7, R9): bytes, 16-bit counters and values, 32-bit port words.
Every quantity is unsigned; bit 0 is the least significant bit. -/

namespace Sys2Proof

/-- A queue element, a received byte, a status register: 8 bits (R7, R28, R29). -/
abbrev Byte := BitVec 8

/-- A queue counter or the VALUE field of a response: 16 bits (R7, R77). -/
abbrev Half := BitVec 16

/-- A command word or a response word: 32 bits (R7, R70). -/
abbrev Word := BitVec 32

end Sys2Proof
end

