-- ==== Sys2Proof/Config.lean ====
section
/-! DEFINITION. The names of the block's parts (00_scope.md R3, R11), the implementation parameters with their legal
values (R7), what the environment supplies (60_exceptions.md R199, R200), and the values the spec leaves open. -/

namespace Sys2Proof

/-- The two channels (R3). -/
inductive Channel where
  | bus
  | uart
deriving DecidableEq, Repr

/-- The four queues (R11): `btx`, `brx` of BUS and `utx`, `urx` of UART. -/
inductive QueueId where
  | btx
  | brx
  | utx
  | urx
deriving DecidableEq, Repr

/-- The three event sources (R11). -/
inductive EventSource where
  | busEv
  | utxEv
  | urxEv
deriving DecidableEq, Repr

/-- The two transmit paths that carry a busy latch (10_state.md R34). -/
inductive TxPath where
  | bus
  | utx
deriving DecidableEq, Repr

/-- The internal number of an event source (30_encoding.md R83). -/
def EventSource.number : EventSource → Nat
  | .busEv => 0
  | .utxEv => 1
  | .urxEv => 2

/-- A legal capacity: 1 to 65535 (R7, decision D8). No other value is representable. -/
abbrev Capacity := { n : Nat // 1 ≤ n ∧ n ≤ 65535 }

/-- The model's boundary for a capacity: it refuses 0 and every value above 65535 (93_implementation_defined.md U9). -/
def Capacity.ofNat? (n : Nat) : Option Capacity :=
  if h : 1 ≤ n ∧ n ≤ 65535 then some ⟨n, h⟩ else none

/-- A fixed priority list: the three event sources, each once (R7). -/
abbrev PriorityList := { l : List EventSource // l.length = 3 ∧ l.Nodup }

/-- `ARB_ORDER` (R7, decision D13): any pending source, or a fixed priority list. -/
inductive ArbOrder where
  | free
  | fixed (order : PriorityList)
deriving DecidableEq, Repr

/-- The parameters of R7. Each is fixed for the life of the block; every claim of the model is about every value. -/
structure Params where
  cBtx : Capacity
  cBrx : Capacity
  cUtx : Capacity
  cUrx : Capacity
  uartTxErrStops : Bool
  arbOrder : ArbOrder
deriving DecidableEq, Repr

/-- `C(Q)`, the capacity parameter of a queue (R10, R11). -/
def Params.capacity (p : Params) : QueueId → Capacity
  | .btx => p.cBtx
  | .brx => p.cBrx
  | .utx => p.cUtx
  | .urx => p.cUrx

/-- The parameters of `State.reset`. DESIGN CHOICE (log 2), unsafe for a claim about that one state only: the spec
fixes no capacity and leaves UART_TX_ERR_STOPS open; FREE is the spec's own default for ARB_ORDER. -/
def Params.default : Params :=
  { cBtx := ⟨4, by decide⟩, cBrx := ⟨4, by decide⟩, cUtx := ⟨4, by decide⟩, cUrx := ⟨4, by decide⟩
    uartTxErrStops := true, arbOrder := .free }

/-- The values one dispatch draws from the hardware-access collaborator (60_exceptions.md R199): the two received
bytes and the four error flags. A handler reads only those its body names; the others are dropped (log 13). -/
structure Draws where
  busRx : Byte
  uartRx : Byte
  collision : Bool
  frameError : Bool
  parityError : Bool
  dataOverrun : Bool
deriving DecidableEq, Repr, Inhabited

/-- One choice of the scheduler (60_exceptions.md R200): which agent takes the next step, with the draws of a
dispatch (R194, R196, R197, R198). -/
inductive Move where
  | fg
  | dispatch (e : EventSource) (d : Draws)
  | complete (p : TxPath)
  | arrive
deriving DecidableEq, Repr, Inhabited

/-- The scheduler's choices once the state lists no more of them: a free value, nothing constrains it (R200; log 4). -/
opaque Config.freeMove : Nat → Move

/-- PORT_BYTE_ORDER, OPEN: how a platform carries a port word over a narrower bus; true means the least significant
byte first. No rule reads it (20_memory.md R51, U10; log 12). -/
opaque Config.portByteOrderLittle : Bool

/-- CMD_PORT_BASE, OPEN: where a platform maps the command port. No rule reads it (20_memory.md R55, U11; log 12). -/
opaque Config.cmdPortBase : Nat

end Sys2Proof
end

