-- ==== Sys2Proof/Syntax.lean ====
section
/-! DEFINITION. The thirteen commands of the command port (30_encoding.md R74), one constructor per row of the opcode
table, with their operands (R72, R73) and the pseudo-instructions of R82. -/

namespace Sys2Proof

/-- A command of the command port. A FIFO command names a queue, a channel command a channel (R72). -/
inductive Instr where
  | push (q : QueueId) (b : Byte)
  | pushMany (q : QueueId) (bs : List Byte)
  | pop (q : QueueId)
  | popAll (q : QueueId)
  | len (q : QueueId)
  | frontPeek (q : QueueId)
  | backPeek (q : QueueId)
  | isEmpty (q : QueueId)
  | isFull (q : QueueId)
  | transmit (ch : Channel) (b : Byte)
  | readStatus (ch : Channel)
  | init (ch : Channel)
  | ieswap (v : Bool)
deriving DecidableEq, Repr

end Sys2Proof
end

