-- ==== Sys2Proof/WellFormed.lean ====
section
/-! DEFINITION. Which commands can be encoded: the count of PUSH_MANY is a 16-bit field (30_encoding.md R73), so its
list holds at most 65535 bytes. Every other operand is legal by its type. -/

namespace Sys2Proof

/-- The command has an encoding (R73, R81: "a list longer than 65535" is rejected). -/
def Instr.wellFormed : Instr → Bool
  | .push _ _ => true
  | .pushMany _ bs => decide (bs.length ≤ 65535)
  | .pop _ => true
  | .popAll _ => true
  | .len _ => true
  | .frontPeek _ => true
  | .backPeek _ => true
  | .isEmpty _ => true
  | .isFull _ => true
  | .transmit _ _ => true
  | .readStatus _ => true
  | .init _ => true
  | .ieswap _ => true

end Sys2Proof
end

