-- ==== Sys2Proof/Decode.lean ====
section
/-! DEFINITION. Decoding and encoding of commands (30_encoding.md): the header's fields (R71 to R73), the framing of the
word stream (R80), legality (R75, R76), the decoder, total on every framed pair (R84), the opcode map as a table
(R74), and the encoder. -/

namespace Sys2Proof

/-! ## Header and payload fields (R71, R73) -/

/-- `OPC`, bits [31:28]. -/
def hdrOpc (h : Word) : BitVec 4 := h.extractLsb' 28 4

/-- `CH`, bit [27]: 0 = BUS, 1 = UART. -/
def hdrCh (h : Word) : Bool := h.getLsbD 27

/-- `DIR`, bit [26]: 0 = send queue, 1 = receive queue. -/
def hdrDir (h : Word) : Bool := h.getLsbD 26

/-- `RSV`, bits [25:16]. -/
def hdrRsv (h : Word) : BitVec 10 := h.extractLsb' 16 10

/-- `IMM`, bits [15:0]. -/
def hdrImm (h : Word) : Half := h.extractLsb' 0 16

/-- `IMM[7:0]`, the byte operand of PUSH and TRANSMIT. -/
def hdrByte (h : Word) : Byte := h.extractLsb' 0 8

/-- `IMM[15:8]`, zero in a legal PUSH or TRANSMIT. -/
def hdrImmHigh (h : Word) : Byte := h.extractLsb' 8 8

/-- `IMM[15:1]`, zero in a legal IESWAP. -/
def hdrImmAboveBit0 (h : Word) : BitVec 15 := h.extractLsb' 1 15

/-- `IMM[0]`, the new enable of IESWAP. -/
def hdrEnable (h : Word) : Bool := h.getLsbD 0

/-- The byte a PUSH_MANY payload word carries, bits [7:0]. -/
def payloadByte (w : Word) : Byte := w.extractLsb' 0 8

/-- Bits [31:8] of a payload word, zero in a legal one. -/
def payloadHigh (w : Word) : BitVec 24 := w.extractLsb' 8 24

/-- The queue that `{CH, DIR}` selects (R72). -/
def queueOf (ch dir : Bool) : QueueId :=
  match ch, dir with
  | false, false => .btx
  | false, true => .brx
  | true, false => .utx
  | true, true => .urx

/-- The channel that `CH` selects (R71, R72). -/
def channelOf (ch : Bool) : Channel := if ch then .uart else .bus

/-! ## Framing (R80) -/

/-- How many payload words follow the header. It depends on `OPC` and `IMM` alone. -/
def payloadLength (h : Word) : Nat := if hdrOpc h = 0x2#4 then (hdrImm h).toNat else 0

/-- Splits the first command off a word stream: its header, its payload and the rest. None when the stream does not
yet hold a whole command. -/
def frame : List Word → Option (Word × List Word × List Word)
  | [] => none
  | h :: ws =>
    if payloadLength h ≤ ws.length then some (h, ws.take (payloadLength h), ws.drop (payloadLength h)) else none

/-! ## Legality (R75, R76) -/

/-- Why a command is illegal: the six cases of R75, in its order. -/
inductive Illegal where
  | reservedOpcode
  | rsvNotZero
  | immNotZero
  | dirNotZero
  | enableSelectNotZero
  | payloadHighNotZero
deriving DecidableEq, Repr

/-- The first test of R76 that fails, none when the command is legal. -/
def illegalReason (h : Word) (payload : List Word) : Option Illegal :=
  let opc := hdrOpc h
  if opc = 0x0#4 ∨ opc = 0xE#4 ∨ opc = 0xF#4 then some .reservedOpcode
  else if hdrRsv h ≠ 0#10 then some .rsvNotZero
  else if (opc = 0x1#4 ∨ opc = 0xA#4) ∧ hdrImmHigh h ≠ 0#8 then some .immNotZero
  else if (0x3#4 ≤ opc ∧ opc ≤ 0x9#4 ∨ opc = 0xB#4 ∨ opc = 0xC#4) ∧ hdrImm h ≠ 0#16 then some .immNotZero
  else if (opc = 0xA#4 ∨ opc = 0xB#4 ∨ opc = 0xC#4) ∧ hdrDir h = true then some .dirNotZero
  else if opc = 0xD#4 ∧ (hdrCh h = true ∨ hdrDir h = true) then some .enableSelectNotZero
  else if opc = 0xD#4 ∧ hdrImmAboveBit0 h ≠ 0#15 then some .immNotZero
  else if opc = 0x2#4 ∧ payload.any (fun w => payloadHigh w != 0#24) = true then some .payloadHighNotZero
  else none

/-- `legal(h, payload)` of R76. -/
def legal (h : Word) (payload : List Word) : Bool := (illegalReason h payload).isNone

/-! ## The decoder (R74, R84) -/

/-- What a framed command decodes to: one of the thirteen commands, or the ILLEGAL outcome with its reason. -/
inductive Decoded where
  | command (i : Instr)
  | illegal (why : Illegal)
deriving DecidableEq, Repr

/-- The command of a legal header, by its opcode (R74). None for the reserved opcodes. -/
def selectCommand (h : Word) (payload : List Word) : Option Instr :=
  let q := queueOf (hdrCh h) (hdrDir h)
  let ch := channelOf (hdrCh h)
  match (hdrOpc h).toNat with
  | 0x1 => some (.push q (hdrByte h))
  | 0x2 => some (.pushMany q (payload.map payloadByte))
  | 0x3 => some (.pop q)
  | 0x4 => some (.popAll q)
  | 0x5 => some (.len q)
  | 0x6 => some (.frontPeek q)
  | 0x7 => some (.backPeek q)
  | 0x8 => some (.isEmpty q)
  | 0x9 => some (.isFull q)
  | 0xA => some (.transmit ch (hdrByte h))
  | 0xB => some (.readStatus ch)
  | 0xC => some (.init ch)
  | 0xD => some (.ieswap (hdrEnable h))
  | _ => none

/-- Decodes a header with its framed payload. Total; an illegal command is rejected by name (R76, R84). -/
def decode (h : Word) (payload : List Word) : Decoded :=
  match illegalReason h payload with
  | some why => .illegal why
  | none =>
    match selectCommand h payload with
    | some i => .command i
    | none => .illegal .reservedOpcode

/-- The transaction-level boundary of R70: a pair whose payload has not the framing length is refused (U16). -/
def decodePair (h : Word) (payload : List Word) : Option Decoded :=
  if payload.length = payloadLength h then some (decode h payload) else none

/-- Decodes the first command of a word stream and gives the words after it; none when the stream does not yet hold a
whole command. -/
def decodeStream (ws : List Word) : Option (Decoded × List Word) :=
  match frame ws with
  | none => none
  | some (h, payload, rest) => some (decode h payload, rest)

/-! ## The encoder -/

/-- A legal header from its fields (R71); RSV is 0. -/
def mkHeader (opc : BitVec 4) (ch dir : Bool) (imm : Half) : Word :=
  opc ++ BitVec.ofBool ch ++ BitVec.ofBool dir ++ 0#10 ++ imm

/-- The `CH` bit of a queue (R72). -/
def QueueId.ch : QueueId → Bool
  | .btx | .brx => false
  | .utx | .urx => true

/-- The `DIR` bit of a queue (R72). -/
def QueueId.dir : QueueId → Bool
  | .btx | .utx => false
  | .brx | .urx => true

/-- The `CH` bit of a channel (R71). -/
def Channel.ch : Channel → Bool
  | .bus => false
  | .uart => true

/-- A byte operand in IMM (R73). -/
def immByte (b : Byte) : Half := 0#8 ++ b

/-- A payload word of PUSH_MANY (R73). -/
def payloadWord (b : Byte) : Word := 0#24 ++ b

/-- The words of a command: its header, then its payload (R71, R73, R74, R80). -/
def encode : Instr → List Word
  | .push q b => [mkHeader 0x1#4 q.ch q.dir (immByte b)]
  | .pushMany q bs => mkHeader 0x2#4 q.ch q.dir (BitVec.ofNat 16 bs.length) :: bs.map payloadWord
  | .pop q => [mkHeader 0x3#4 q.ch q.dir 0#16]
  | .popAll q => [mkHeader 0x4#4 q.ch q.dir 0#16]
  | .len q => [mkHeader 0x5#4 q.ch q.dir 0#16]
  | .frontPeek q => [mkHeader 0x6#4 q.ch q.dir 0#16]
  | .backPeek q => [mkHeader 0x7#4 q.ch q.dir 0#16]
  | .isEmpty q => [mkHeader 0x8#4 q.ch q.dir 0#16]
  | .isFull q => [mkHeader 0x9#4 q.ch q.dir 0#16]
  | .transmit ch b => [mkHeader 0xA#4 ch.ch false (immByte b)]
  | .readStatus ch => [mkHeader 0xB#4 ch.ch false 0#16]
  | .init ch => [mkHeader 0xC#4 ch.ch false 0#16]
  | .ieswap v => [mkHeader 0xD#4 false false (0#15 ++ BitVec.ofBool v)]

/-! ## The opcode map as a table (R74) -/

/-- A row of R74: the match and mask values of a header. -/
structure OpcodeRow where
  mnemonic : String
  value : Word
  mask : Word
deriving DecidableEq, Repr

/-- The header has the row's fixed bits. -/
def OpcodeRow.matches (r : OpcodeRow) (h : Word) : Bool := h &&& r.mask == r.value

/-- The FIFO rows of R74. -/
def fifoRows : List OpcodeRow :=
  [⟨"PUSH", 0x10000000#32, 0xF3FFFF00#32⟩, ⟨"PUSH_MANY", 0x20000000#32, 0xF3FF0000#32⟩,
   ⟨"POP", 0x30000000#32, 0xF3FFFFFF#32⟩, ⟨"POP_ALL", 0x40000000#32, 0xF3FFFFFF#32⟩,
   ⟨"LEN", 0x50000000#32, 0xF3FFFFFF#32⟩, ⟨"FRONT_PEEK", 0x60000000#32, 0xF3FFFFFF#32⟩,
   ⟨"BACK_PEEK", 0x70000000#32, 0xF3FFFFFF#32⟩, ⟨"IS_EMPTY", 0x80000000#32, 0xF3FFFFFF#32⟩,
   ⟨"IS_FULL", 0x90000000#32, 0xF3FFFFFF#32⟩]

/-- The channel rows of R74. -/
def channelRows : List OpcodeRow :=
  [⟨"TRANSMIT", 0xA0000000#32, 0xF7FFFF00#32⟩, ⟨"READ_STATUS", 0xB0000000#32, 0xF7FFFFFF#32⟩,
   ⟨"INIT", 0xC0000000#32, 0xF7FFFFFF#32⟩, ⟨"IESWAP", 0xD0000000#32, 0xFFFFFFFE#32⟩]

/-- All thirteen rows of R74. -/
def opcodeRows : List OpcodeRow := fifoRows ++ channelRows

/-! ## The host's reading of one table word -/

/-- The `n` 32-bit words of `w`, the least significant first. -/
def wordsOf : Nat → Nat → List Word
  | 0, _ => []
  | n + 1, w => BitVec.ofNat 32 w :: wordsOf n (w / 2 ^ 32)

/-- The port words of an instruction whose table bits are `w`: the header, then as many payload words as it frames;
every bit above `nbits` is 0. -/
def tableWords (nbits w : Nat) : List Word :=
  let bits := w % 2 ^ nbits
  let h := BitVec.ofNat 32 bits
  h :: wordsOf (payloadLength h) (bits / 2 ^ 32)

/-- The command the decoder reads from an instruction whose table bits are `w`. -/
def decodeTableWord (nbits w : Nat) : Option Instr :=
  match decodeStream (tableWords nbits w) with
  | some (.command i, _) => some i
  | some (.illegal _, _) => none
  | none => none

end Sys2Proof
end

