-- ==== Sys2Proof/Machine/State.lean ====
section
/-! DEFINITION. The state of the block (10_state.md R20), its parameters and inputs, the observation (R212), the
reasons a step can stop, and the state after reset (R37). -/

namespace Sys2Proof.Machine

/-- A result code (30_encoding.md R78). -/
inductive RC where
  | ok
  | full
  | empty
  | tooMany
  | illegal
deriving DecidableEq, Repr

/-- The values of BUS.status (10_state.md R28). -/
inductive BusStatus where
  | idle
  | busy
  | bufferOverflow
  | collision
deriving DecidableEq, Repr

/-- The values of UART.status, one register shared by the TX and RX paths (10_state.md R29). -/
inductive UartStatus where
  | txIdle
  | txBusy
  | frameError
  | parityError
  | dataOverrun
  | overflow
deriving DecidableEq, Repr

/-- A byte queue (10_state.md R23): its storage cells, in index order, and its two 16-bit counters. -/
structure Queue where
  buf : List Byte
  front : Half
  len : Half
deriving DecidableEq, Repr

/-- One entry of the observation (60_exceptions.md R212). `command` and the `response` after it are one FG command
with its response word; `write` is the output event `Write(S, b)` of PhyWrite (42_event_handlers.md R166). -/
inductive Output where
  | command (header : Word) (payload : List Word)
  | response (w : Word)
  | write (ch : Channel) (b : Byte)
deriving DecidableEq, Repr

/-- Why a step faults. There is no reason: the block raises no exception and no trap, every error is a result code or
a status value (60_exceptions.md R190), so no step of this model faults. -/
inductive Fault where
deriving DecidableEq, Repr

/-- Why a step refuses. -/
inductive Refusal where
  /-- Raised by `exec` alone, for a command that has no meaning yet; safe, because the run ends. No arm of `exec`
  raises it: all thirteen commands have their meaning. -/
  | notModelled (mnemonic : String)
deriving DecidableEq, Repr

/-- The state. The first group is the spec's own state (R20). `params` holds the parameters of R7, which no step
writes (log 1). `fg` is the FG agent's command sequence as port words (R70; log 6). It is finite and no step adds to it,
a DESIGN CHOICE (log 17): the spec does not say whether FG's sequence may be endless. `sched` is the choices and draws of
the environment, the next one first, and `tick` counts the free choices taken once `sched` is empty (R199, R200;
log 4). `out` is the observation, oldest first (R212; log 7). -/
structure State where
  btx : Queue
  brx : Queue
  utx : Queue
  urx : Queue
  busStatus : BusStatus
  uartStatus : UartStatus
  ie : Bool
  pendBus : Bool
  pendUtx : Bool
  pendUrx : Bool
  phyBusyBus : Bool
  phyBusyUtx : Bool
  params : Params
  fg : List Word
  sched : List Move
  tick : Nat
  out : List Output
deriving DecidableEq, Repr

/-- An empty queue at reset: `front = 0`, `len = 0` (R37). The cells are unspecified and unobservable (R36); zero is a
DESIGN CHOICE (log 3), unsafe only for a claim that reads a cell outside the content. -/
def Queue.reset (c : Capacity) : Queue := { buf := List.replicate c.val 0#8, front := 0#16, len := 0#16 }

/-- The state right after power-on, for any parameters (R37, R220). FG has issued nothing and the environment has
chosen nothing yet (log 4, log 6). -/
def State.resetWith (p : Params) : State where
  btx := Queue.reset p.cBtx
  brx := Queue.reset p.cBrx
  utx := Queue.reset p.cUtx
  urx := Queue.reset p.cUrx
  busStatus := .idle
  uartStatus := .txIdle
  ie := false
  pendBus := false
  pendUtx := false
  pendUrx := false
  phyBusyBus := false
  phyBusyUtx := false
  params := p
  fg := []
  sched := []
  tick := 0
  out := []

/-- The state after reset, at the parameters the model names (log 2). -/
def State.reset : State := State.resetWith Params.default

end Sys2Proof.Machine
end

