-- ==== Sys2Proof/Machine/Flags.lean ====
section
/-! DEFINITION. The derived flags of a queue and the codes of statuses and results (10_state.md R27 to R29,
30_encoding.md R78). -/

namespace Sys2Proof.Machine

/-- `EMPTY(Q)`: the length is 0 (R27). -/
def Queue.isEmpty (q : Queue) : Bool := q.len == 0#16

/-- `FULL(Q)`: the length is the capacity (R27). -/
def Queue.isFull (c : Capacity) (q : Queue) : Bool := q.len.toNat == c.val

/-- The 4-bit code of a result (R78). -/
def RC.code : RC → BitVec 4
  | .ok => 0#4
  | .full => 1#4
  | .empty => 2#4
  | .tooMany => 3#4
  | .illegal => 4#4

/-- BUS.status as its 8-bit register: CODE in [1:0], zeros above (R28). -/
def BusStatus.code : BusStatus → Byte
  | .idle => 0x00#8
  | .busy => 0x01#8
  | .bufferOverflow => 0x02#8
  | .collision => 0x03#8

/-- UART.status as its 8-bit register: CODE in [2:0], zeros above (R29). -/
def UartStatus.code : UartStatus → Byte
  | .txIdle => 0x00#8
  | .txBusy => 0x01#8
  | .frameError => 0x02#8
  | .parityError => 0x03#8
  | .dataOverrun => 0x04#8
  | .overflow => 0x05#8

end Sys2Proof.Machine
end

