-- ==== Sys2Proof/Machine/Operands.lean ====
section
/-! DEFINITION. The operands of commands and handlers: which queue, event source, transmit path and status value
belong to a channel (41_channel_commands.md, 42_event_handlers.md), and the accessors of State for them. -/

namespace Sys2Proof.Machine

/-- `TXQ(S)`: the send queue of a channel. -/
def txq : Channel → QueueId
  | .bus => .btx
  | .uart => .utx

/-- `RXQ(S)`: the receive queue of a channel. -/
def rxq : Channel → QueueId
  | .bus => .brx
  | .uart => .urx

/-- `TXEV(S)`: the event source that TRANSMIT arms. -/
def txev : Channel → EventSource
  | .bus => .busEv
  | .uart => .utxEv

/-- `p(S)`: the transmit path a PhyWrite makes busy (R166). -/
def pathOf : Channel → TxPath
  | .bus => .bus
  | .uart => .utx

/-- `ev(p)`: the event source a completion makes pending (R197). -/
def evOf : TxPath → EventSource
  | .bus => .busEv
  | .utx => .utxEv

/-- `zext_16` of a byte (R9, R77). -/
def zext16 (b : Byte) : Half := b.setWidth 16

/-- A flag or the enable bit as a VALUE: 0 or 1 (R77). -/
def flagHalf (v : Bool) : Half := if v then 1#16 else 0#16

/-- A queue by its name. -/
def State.queue (s : State) : QueueId → Queue
  | .btx => s.btx
  | .brx => s.brx
  | .utx => s.utx
  | .urx => s.urx

/-- Replaces a queue. -/
def State.setQueue (s : State) (id : QueueId) (q : Queue) : State :=
  match id with
  | .btx => { s with btx := q }
  | .brx => { s with brx := q }
  | .utx => { s with utx := q }
  | .urx => { s with urx := q }

/-- `C(Q)` (R10). -/
def State.cap (s : State) (id : QueueId) : Capacity := s.params.capacity id

/-- `PEND[e]` (R33). -/
def State.pend (s : State) : EventSource → Bool
  | .busEv => s.pendBus
  | .utxEv => s.pendUtx
  | .urxEv => s.pendUrx

/-- Writes `PEND[e]`. -/
def State.setPend (s : State) (e : EventSource) (v : Bool) : State :=
  match e with
  | .busEv => { s with pendBus := v }
  | .utxEv => { s with pendUtx := v }
  | .urxEv => { s with pendUrx := v }

/-- `PHY_BUSY[p]` (R34). -/
def State.phyBusy (s : State) : TxPath → Bool
  | .bus => s.phyBusyBus
  | .utx => s.phyBusyUtx

/-- Writes `PHY_BUSY[p]`. -/
def State.setPhyBusy (s : State) (p : TxPath) (v : Bool) : State :=
  match p with
  | .bus => { s with phyBusyBus := v }
  | .utx => { s with phyBusyUtx := v }

/-- `S.status` as its 8-bit register (R28, R29). -/
def State.statusCode (s : State) : Channel → Byte
  | .bus => s.busStatus.code
  | .uart => s.uartStatus.code

/-- `S.status == IDLE(S)`. -/
def State.statusIsIdle (s : State) : Channel → Bool
  | .bus => s.busStatus == .idle
  | .uart => s.uartStatus == .txIdle

/-- Writes BUS.status. -/
def State.setBusStatus (s : State) (v : BusStatus) : State := { s with busStatus := v }

/-- Writes UART.status. -/
def State.setUartStatus (s : State) (v : UartStatus) : State := { s with uartStatus := v }

/-- `S.status <- IDLE(S)`. -/
def State.setIdle (s : State) : Channel → State
  | .bus => s.setBusStatus .idle
  | .uart => s.setUartStatus .txIdle

/-- `S.status <- OVF(S)`. -/
def State.setOverflow (s : State) : Channel → State
  | .bus => s.setBusStatus .bufferOverflow
  | .uart => s.setUartStatus .overflow

/-- Writes IE (R32). -/
def State.setIe (s : State) (v : Bool) : State := { s with ie := v }

/-- Replaces the words on the command port. -/
def State.setFg (s : State) (ws : List Word) : State := { s with fg := ws }

/-- Replaces the scheduler's list of choices. -/
def State.setSched (s : State) (ms : List Move) : State := { s with sched := ms }

/-- Replaces the counter of free choices. -/
def State.setTick (s : State) (n : Nat) : State := { s with tick := n }

end Sys2Proof.Machine
end

