-- ==== Sys2Proof/Machine/Ops.lean ====
section
/-! DEFINITION. The shared operations: the queue primitives (40_fifo_commands.md R100 to R106), the response (R77),
arming and PhyWrite (R10, R166), and taking an event, which is the block's only form of exception entry (60_exceptions.md
R196, R202, R203). -/

namespace Sys2Proof.Machine

/-! ## The queue primitives. Sums are exact before `mod` (decision D8). -/

/-- The storage index of the element at offset `i` (R24). -/
def Queue.index (c : Capacity) (q : Queue) (i : Nat) : Nat := (q.front.toNat + i) % c.val

/-- A storage cell. Under the queue invariant the index is inside the storage; outside it the cell reads 0 (log 9). -/
def Queue.cell (q : Queue) (i : Nat) : Byte := q.buf.getD i 0#8

/-- `content(Q)`, oldest first (R24). -/
def Queue.content (c : Capacity) (q : Queue) : List Byte :=
  (List.range q.len.toNat).map (fun i => q.cell (q.index c i))

/-- `q_push(Q, b)` (R100). -/
def qPush (c : Capacity) (q : Queue) (b : Byte) : RC × Queue :=
  if q.len.toNat = c.val then (.full, q)
  else (.ok, { q with buf := q.buf.set (q.index c q.len.toNat) b, len := BitVec.ofNat 16 (q.len.toNat + 1) })

/-- The cell writes of `q_push_many`: the bytes go to the cells `at mod C`, `(at + 1) mod C`, and so on (R101). -/
def writeCells (c : Capacity) (buf : List Byte) (i : Nat) : List Byte → List Byte
  | [] => buf
  | b :: bs => writeCells c (buf.set (i % c.val) b) (i + 1) bs

/-- `q_push_many(Q, bs)` (R101): TOOMANY is tested first, whatever the length. -/
def qPushMany (c : Capacity) (q : Queue) (bs : List Byte) : RC × Queue :=
  if c.val < bs.length then (.tooMany, q)
  else if c.val < q.len.toNat + bs.length then (.full, q)
  else (.ok, { q with buf := writeCells c q.buf (q.front.toNat + q.len.toNat) bs,
                      len := BitVec.ofNat 16 (q.len.toNat + bs.length) })

/-- `q_pop(Q)` (R102): the result code, the byte (0 on EMPTY) and the queue after it. -/
def qPop (c : Capacity) (q : Queue) : RC × Byte × Queue :=
  if q.len = 0#16 then (.empty, 0#8, q)
  else (.ok, q.cell q.front.toNat,
        { q with front := BitVec.ofNat 16 ((q.front.toNat + 1) % c.val), len := BitVec.ofNat 16 (q.len.toNat - 1) })

/-- `q_pop_all(Q)` (R103): the cells keep their bytes. -/
def qPopAll (q : Queue) : Queue := { q with front := 0#16, len := 0#16 }

/-- `q_len(Q)` (R104). -/
def qLen (q : Queue) : Half := q.len

/-- `q_front(Q)` (R105). -/
def qFront (q : Queue) : RC × Byte :=
  if q.len = 0#16 then (.empty, 0#8) else (.ok, q.cell q.front.toNat)

/-- `q_back(Q)` (R106). -/
def qBack (c : Capacity) (q : Queue) : RC × Byte :=
  if q.len = 0#16 then (.empty, 0#8) else (.ok, q.cell ((q.front.toNat + q.len.toNat - 1) % c.val))

/-! ## Outputs -/

/-- The response word `{RC, 12'b0, VALUE}` (30_encoding.md R77). -/
def responseWord (rc : RC) (value : Half) : Word := rc.code ++ 0#12 ++ value

/-- Appends to the observation (60_exceptions.md R212). -/
def State.emit (s : State) (o : Output) : State := { s with out := s.out ++ [o] }

/-- Ends a command: emits its one response word (R70, R77). -/
def State.respond (s : State) (rc : RC) (value : Half) : State := s.emit (.response (responseWord rc value))

/-- `Arm(e)`: sets the pending latch (R10). Setting a latch that is 1 leaves it 1 (R33). -/
def State.arm (s : State) (e : EventSource) : State := s.setPend e true

/-- `PhyWrite(S, b)` (R166): the output event, and the path becomes busy or stays so. -/
def State.phyWrite (s : State) (ch : Channel) (b : Byte) : State :=
  (s.emit (.write ch b)).setPhyBusy (pathOf ch) true

/-! ## The outcomes shared by all commands -/

/-- The illegal command (R75, R76): no state changes, the response is `(ILLEGAL, 0)`. -/
def answerIllegal (s : State) : State := s.respond .illegal 0#16

/-- Taking an event, the entry of a dispatch (R196, R202): the source's latch is cleared before the handler's body
runs. Nothing is saved and IE is not changed; there is no return address, mode or mask. -/
def eventEntry (e : EventSource) (s : State) : State := s.setPend e false

/-- The end of a handler (R203): there is no return instruction and nothing to restore. -/
def eventReturn (s : State) : State := s

end Sys2Proof.Machine
end

