-- ==== Sys2Proof/Machine/Handlers.lean ====
section
/-! DEFINITION. The bodies of the three event handlers (42_event_handlers.md R160, R162, R164). `d` holds the values the
dispatch draws (60_exceptions.md R199). -/

namespace Sys2Proof.Machine

/-- The send half of the BUS_EV handler (R160): pop BTX and write the byte, or become idle. -/
def busSend (s : State) : State :=
  if (qPop (s.cap .btx) s.btx).1 = .ok then
    ((s.setQueue .btx (qPop (s.cap .btx) s.btx).2.2).phyWrite .bus (qPop (s.cap .btx) s.btx).2.1).setBusStatus .busy
  else s.setBusStatus .idle

/-- The BUS_EV handler (R160). The received byte is read only when the status is `Busy`. -/
def busHandler (d : Draws) (s : State) : State :=
  if d.collision then s.setBusStatus .collision
  else if s.busStatus = .busy then
    if (qPush (s.cap .brx) s.brx d.busRx).1 = .full then s.setBusStatus .bufferOverflow
    else busSend (s.setQueue .brx (qPush (s.cap .brx) s.brx d.busRx).2)
  else busSend s

/-- The error a UTX_EV event sees, if any: FrameError before ParityError (R162, decision D17). -/
def utxError (d : Draws) : Option UartStatus :=
  if d.frameError then some .frameError else if d.parityError then some .parityError else none

/-- The send half of the UTX_EV handler (R162): pop UTX and write the byte; the status is the error, if there is one,
otherwise `TxBusy` or `TxIdle`. -/
def utxSend (err : Option UartStatus) (s : State) : State :=
  if (qPop (s.cap .utx) s.utx).1 = .ok then
    ((s.setQueue .utx (qPop (s.cap .utx) s.utx).2.2).phyWrite .uart (qPop (s.cap .utx) s.utx).2.1).setUartStatus
      (err.getD .txBusy)
  else s.setUartStatus (err.getD .txIdle)

/-- The UTX_EV handler (R162). With UART_TX_ERR_STOPS an error is recorded and nothing is popped. -/
def utxHandler (d : Draws) (s : State) : State :=
  match utxError d with
  | none => utxSend none s
  | some err => if s.params.uartTxErrStops then s.setUartStatus err else utxSend (some err) s

/-- The URX_EV handler (R164): FrameError, DataOverrun, ParityError in this order; otherwise the byte is queued, and a
full queue sets `Overflow`. A successful receive leaves the status. -/
def urxHandler (d : Draws) (s : State) : State :=
  if d.frameError then s.setUartStatus .frameError
  else if d.dataOverrun then s.setUartStatus .dataOverrun
  else if d.parityError then s.setUartStatus .parityError
  else if (qPush (s.cap .urx) s.urx d.uartRx).1 = .full then s.setUartStatus .overflow
  else s.setQueue .urx (qPush (s.cap .urx) s.urx d.uartRx).2

end Sys2Proof.Machine
end

