-- ==== Sys2Proof/Machine/Arbiter.lean ====
section
/-! DEFINITION. The interrupt arbiter and the peripheral steps (60_exceptions.md R196 to R201). -/

namespace Sys2Proof.Machine

/-- `ARB_ORDER` allows the source (R201): under FREE every source; under a fixed list only its first pending source. -/
def arbAllows (s : State) (e : EventSource) : Bool :=
  match s.params.arbOrder with
  | .free => true
  | .fixed order => order.val.find? s.pend == some e

/-- The dispatch of the source is enabled (R196): IE is 1, its latch is set and ARB_ORDER allows it. -/
def canDispatch (s : State) (e : EventSource) : Bool := s.ie && s.pend e && arbAllows s e

/-- The handler body of a source (R196). -/
def runHandler (e : EventSource) (d : Draws) (s : State) : State :=
  match e with
  | .busEv => busHandler d s
  | .utxEv => utxHandler d s
  | .urxEv => urxHandler d s

/-- `dispatch(e)` as one atomic step (R196). -/
def dispatch (e : EventSource) (d : Draws) (s : State) : State :=
  eventReturn (runHandler e d (eventEntry e s))

/-- `complete(p)` (R197). -/
def complete (p : TxPath) (s : State) : State := (s.setPhyBusy p false).setPend (evOf p) true

/-- The byte-arrival step (R198). -/
def arrive (s : State) : State := s.setPend .urxEv true

end Sys2Proof.Machine
end

