-- ==== Sys2Proof/Machine/ChannelCommands.lean ====
section
/-! DEFINITION. The four channel commands (41_channel_commands.md R140 to R143). -/

namespace Sys2Proof.Machine

/-- The effect of TRANSMIT before its response (R140): push to the send queue; a full queue sets the overflow status
and drops the byte; otherwise the channel's send event is armed when the status is idle. -/
def transmitEffect (ch : Channel) (b : Byte) (s : State) : State :=
  if (qPush (s.cap (txq ch)) (s.queue (txq ch)) b).1 = .full then s.setOverflow ch
  else if s.statusIsIdle ch then
    (s.setQueue (txq ch) (qPush (s.cap (txq ch)) (s.queue (txq ch)) b).2).arm (txev ch)
  else s.setQueue (txq ch) (qPush (s.cap (txq ch)) (s.queue (txq ch)) b).2

/-- TRANSMIT (R140): always answers OK. -/
def execTransmit (ch : Channel) (b : Byte) (s : State) : Host.Outcome State Fault Refusal :=
  .next ((transmitEffect ch b s).respond .ok 0#16)

/-- READ_STATUS (R141). -/
def execReadStatus (ch : Channel) (s : State) : Host.Outcome State Fault Refusal :=
  .next (s.respond .ok (zext16 (s.statusCode ch)))

/-- Clears the pending latches of a channel: BUS_EV of BUS, UTX_EV and URX_EV of UART (R142). -/
def clearPend (s : State) : Channel → State
  | .bus => s.setPend .busEv false
  | .uart => (s.setPend .utxEv false).setPend .urxEv false

/-- The effect of INIT before its response (R142). IE, PHY_BUSY and the other channel are unchanged. -/
def initEffect (ch : Channel) (s : State) : State :=
  clearPend (((s.setQueue (txq ch) (qPopAll (s.queue (txq ch)))).setQueue (rxq ch)
    (qPopAll (s.queue (rxq ch)))).setIdle ch) ch

/-- INIT (R142). -/
def execInit (ch : Channel) (s : State) : Host.Outcome State Fault Refusal :=
  .next ((initEffect ch s).respond .ok 0#16)

/-- IESWAP (R143): writes IE and answers the old one. -/
def execIeswap (v : Bool) (s : State) : Host.Outcome State Fault Refusal :=
  .next ((s.setIe v).respond .ok (flagHalf s.ie))

end Sys2Proof.Machine
end

