-- ==== Sys2Proof/Machine/Fifo.lean ====
section
/-! DEFINITION. The nine FIFO commands (40_fifo_commands.md R110 to R118). `q` is the queue of the header's `{CH, DIR}`. -/

namespace Sys2Proof.Machine

/-- PUSH (R110). -/
def execPush (q : QueueId) (b : Byte) (s : State) : Host.Outcome State Fault Refusal :=
  .next ((s.setQueue q (qPush (s.cap q) (s.queue q) b).2).respond (qPush (s.cap q) (s.queue q) b).1 0#16)

/-- PUSH_MANY (R111). -/
def execPushMany (q : QueueId) (bs : List Byte) (s : State) : Host.Outcome State Fault Refusal :=
  .next ((s.setQueue q (qPushMany (s.cap q) (s.queue q) bs).2).respond (qPushMany (s.cap q) (s.queue q) bs).1 0#16)

/-- POP (R112): VALUE is the byte, 0 on EMPTY. -/
def execPop (q : QueueId) (s : State) : Host.Outcome State Fault Refusal :=
  .next ((s.setQueue q (qPop (s.cap q) (s.queue q)).2.2).respond (qPop (s.cap q) (s.queue q)).1
    (zext16 (qPop (s.cap q) (s.queue q)).2.1))

/-- POP_ALL (R113). -/
def execPopAll (q : QueueId) (s : State) : Host.Outcome State Fault Refusal :=
  .next ((s.setQueue q (qPopAll (s.queue q))).respond .ok 0#16)

/-- LEN (R114). -/
def execLen (q : QueueId) (s : State) : Host.Outcome State Fault Refusal :=
  .next (s.respond .ok (qLen (s.queue q)))

/-- FRONT_PEEK (R115). -/
def execFrontPeek (q : QueueId) (s : State) : Host.Outcome State Fault Refusal :=
  .next (s.respond (qFront (s.queue q)).1 (zext16 (qFront (s.queue q)).2))

/-- BACK_PEEK (R116). -/
def execBackPeek (q : QueueId) (s : State) : Host.Outcome State Fault Refusal :=
  .next (s.respond (qBack (s.cap q) (s.queue q)).1 (zext16 (qBack (s.cap q) (s.queue q)).2))

/-- IS_EMPTY (R117). -/
def execIsEmpty (q : QueueId) (s : State) : Host.Outcome State Fault Refusal :=
  .next (s.respond .ok (flagHalf (s.queue q).isEmpty))

/-- IS_FULL (R118). -/
def execIsFull (q : QueueId) (s : State) : Host.Outcome State Fault Refusal :=
  .next (s.respond .ok (flagHalf ((s.queue q).isFull (s.cap q))))

end Sys2Proof.Machine
end

