-- ==== Sys2Proof/Machine/Dispatch.lean ====
section
/-! DEFINITION. The meaning of every command, one arm per constructor (30_encoding.md R74, R76). -/

namespace Sys2Proof.Machine

/-- The meaning of a command: one atomic step (60_exceptions.md R194). -/
def exec (i : Instr) (s : State) : Host.Outcome State Fault Refusal :=
  match i with
  | .push q b => Sys2Proof.Machine.execPush q b s
  | .pushMany q bs => Sys2Proof.Machine.execPushMany q bs s
  | .pop q => Sys2Proof.Machine.execPop q s
  | .popAll q => Sys2Proof.Machine.execPopAll q s
  | .len q => Sys2Proof.Machine.execLen q s
  | .frontPeek q => Sys2Proof.Machine.execFrontPeek q s
  | .backPeek q => Sys2Proof.Machine.execBackPeek q s
  | .isEmpty q => Sys2Proof.Machine.execIsEmpty q s
  | .isFull q => Sys2Proof.Machine.execIsFull q s
  | .transmit ch b => Sys2Proof.Machine.execTransmit ch b s
  | .readStatus ch => Sys2Proof.Machine.execReadStatus ch s
  | .init ch => Sys2Proof.Machine.execInit ch s
  | .ieswap v => Sys2Proof.Machine.execIeswap v s

end Sys2Proof.Machine
end

