-- ==== Sys2Proof/Machine/Scheduler.lean ====
section
/-! DEFINITION. The scheduler (60_exceptions.md R194, R200): which agent moves next, how FG's next command is taken from
the port, and the step of each agent. -/

namespace Sys2Proof.Machine

/-- The next choice of the scheduler: the first of `sched`, or a free value when there is none (R200; log 4). -/
def nextMove (s : State) : Move :=
  match s.sched with
  | m :: _ => m
  | [] => Config.freeMove s.tick

/-- The state once the choice is taken off. -/
def afterChoice (s : State) : State :=
  match s.sched with
  | _ :: ms => s.setSched ms
  | [] => s.setTick (s.tick + 1)

/-- The block takes a command from the port: its words are consumed and enter the observation (R70, R194, R212). -/
def acceptCommand (h : Word) (payload rest : List Word) (s : State) : State :=
  (s.setFg rest).emit (.command h payload)

/-- The FG command step (R194). FG has a next command exactly when the port holds a whole one (R80; log 10); without
one its turn passes (log 5). An illegal command is answered ILLEGAL and changes nothing else (R75, R76). -/
def fgStep (s : State) : Host.Outcome State Fault Refusal :=
  match frame s.fg with
  | none => .next s
  | some (h, payload, rest) =>
    match decode h payload with
    | .command i => exec i (acceptCommand h payload rest s)
    | .illegal _ => .next (answerIllegal (acceptCommand h payload rest s))

/-- The step of the chosen agent (R194, R196, R197, R198). The turn of an agent whose step is not enabled passes and
changes nothing (log 5). -/
def runMove (m : Move) (s : State) : Host.Outcome State Fault Refusal :=
  match m with
  | .fg => fgStep s
  | .dispatch e d => .next (if canDispatch s e then dispatch e d s else s)
  | .complete p => .next (if s.phyBusy p then complete p s else s)
  | .arrive => .next (arrive s)

end Sys2Proof.Machine
end

