-- ==== Sys2Proof/Machine/Step.lean ====
section
/-! DEFINITION. One step of the block: the single total order of atomic steps (20_memory.md R57, 60_exceptions.md R200). -/

namespace Sys2Proof.Machine

/-- One step: the scheduler's next choice is taken off and the chosen agent takes its step. -/
def step (s : State) : Host.Outcome State Fault Refusal := runMove (nextMove s) (afterChoice s)

/-- The instruction whose table bits are `w` is the next command on the port, and the next choice is FG's (log 6). -/
def State.withFetchWord (s : State) (nbits w : Nat) : State :=
  { s with fg := tableWords nbits w ++ s.fg, sched := .fg :: s.sched }

end Sys2Proof.Machine
end

