-- ==== Sys2Proof/Machine/Asm.lean ====
section
/-! DEFINITION. The spec's assembler syntax and pseudo-instructions (30_encoding.md R81, R82): a line, what an assembler
must reject, the command a line stands for, and the reading of a line from its text. -/

namespace Sys2Proof.Machine

/-! ## Lines -/

/-- A line of assembler (R81), or a pseudo-instruction (R82). Numbers are not yet checked against their operand's width. -/
inductive AsmLine where
  | push (q : QueueId) (b : Nat)
  | pushMany (q : QueueId) (bs : List Nat)
  | pop (q : QueueId)
  | popAll (q : QueueId)
  | len (q : QueueId)
  | frontPeek (q : QueueId)
  | backPeek (q : QueueId)
  | isEmpty (q : QueueId)
  | isFull (q : QueueId)
  | transmit (ch : Channel) (b : Nat)
  | readStatus (ch : Channel)
  | init (ch : Channel)
  | ieswap (v : Nat)
  | di
  | ei
  | restore (v : Nat)
  | recv (ch : Channel)
  | peek (q : QueueId)
deriving DecidableEq, Repr

/-- A byte operand; above 255 it is rejected (R81). -/
def asmByte (n : Nat) : Option Byte := if n ≤ 255 then some (BitVec.ofNat 8 n) else none

/-- A list of byte operands; longer than 65535 it is rejected (R81). -/
def asmBytes (ns : List Nat) : Option (List Byte) := if ns.length ≤ 65535 then ns.mapM asmByte else none

/-- The operand of IESWAP; other than 0 or 1 it is rejected (R81). -/
def asmEnable (n : Nat) : Option Bool :=
  match n with
  | 0 => some false
  | 1 => some true
  | _ => none

/-- The receive queue of a channel, `<ch>.rx` (R82). -/
def asmRx : Channel → QueueId
  | .bus => .brx
  | .uart => .urx

/-- The command a line stands for, with the expansions of R82; none when the assembler must reject the line. -/
def assemble : AsmLine → Option Instr
  | .push q b => (asmByte b).map (Instr.push q)
  | .pushMany q bs => (asmBytes bs).map (Instr.pushMany q)
  | .pop q => some (.pop q)
  | .popAll q => some (.popAll q)
  | .len q => some (.len q)
  | .frontPeek q => some (.frontPeek q)
  | .backPeek q => some (.backPeek q)
  | .isEmpty q => some (.isEmpty q)
  | .isFull q => some (.isFull q)
  | .transmit ch b => (asmByte b).map (Instr.transmit ch)
  | .readStatus ch => some (.readStatus ch)
  | .init ch => some (.init ch)
  | .ieswap v => (asmEnable v).map Instr.ieswap
  | .di => some (.ieswap false)
  | .ei => some (.ieswap true)
  | .restore v => (asmEnable v).map Instr.ieswap
  | .recv ch => some (.pop (asmRx ch))
  | .peek q => some (.frontPeek q)

/-! ## Reading a line from its text (log 14) -/

/-- A token of a line: a name, a number, or one of the three separators. -/
inductive Token where
  | name (cs : List Char)
  | num (n : Nat)
  | comma
  | lbracket
  | rbracket
  | bad
deriving DecidableEq, Repr

/-- The value of a digit character, hexadecimal in either case. -/
def digitValue (c : Char) : Option Nat :=
  if '0' ≤ c ∧ c ≤ '9' then some (c.toNat - '0'.toNat)
  else if 'a' ≤ c ∧ c ≤ 'f' then some (c.toNat - 'a'.toNat + 10)
  else if 'A' ≤ c ∧ c ≤ 'F' then some (c.toNat - 'A'.toNat + 10)
  else none

/-- A digit string in a base, read after `acc`. -/
def readDigits (base : Nat) (acc : Nat) : List Char → Option Nat
  | [] => some acc
  | c :: cs =>
    match digitValue c with
    | some d => if d < base then readDigits base (acc * base + d) cs else none
    | none => none

/-- A number: decimal, or hexadecimal after `0x` (R81). -/
def readNumber : List Char → Option Nat
  | [] => none
  | '0' :: 'x' :: c :: cs => readDigits 16 0 (c :: cs)
  | c :: cs => readDigits 10 0 (c :: cs)

/-- The token of a run of word characters: a number when it begins with a digit. -/
def wordToken (cs : List Char) : Token :=
  match cs with
  | [] => .bad
  | c :: _ =>
    if '0' ≤ c ∧ c ≤ '9' then
      match readNumber cs with
      | some n => .num n
      | none => .bad
    else .name cs

/-- The tokens before `rest` once the run of word characters `acc` ends. -/
def flushWord (acc : List Char) (rest : List Token) : List Token :=
  match acc with
  | [] => rest
  | _ :: _ => wordToken acc :: rest

/-- Splits a line into tokens; `acc` is the run of word characters read so far. -/
def lexLine (acc : List Char) : List Char → List Token
  | [] => flushWord acc []
  | c :: cs =>
    if c = ' ' ∨ c = '\t' then flushWord acc (lexLine [] cs)
    else if c = ',' then flushWord acc (.comma :: lexLine [] cs)
    else if c = '[' then flushWord acc (.lbracket :: lexLine [] cs)
    else if c = ']' then flushWord acc (.rbracket :: lexLine [] cs)
    else lexLine (acc ++ [c]) cs

/-- The queue names of R81. -/
def queueNamed (cs : List Char) : Option QueueId :=
  if cs = "bus.tx".toList then some .btx
  else if cs = "bus.rx".toList then some .brx
  else if cs = "uart.tx".toList then some .utx
  else if cs = "uart.rx".toList then some .urx
  else none

/-- The channel names of R81. -/
def channelNamed (cs : List Char) : Option Channel :=
  if cs = "bus".toList then some .bus
  else if cs = "uart".toList then some .uart
  else none

/-- The rest of a byte list after its first element: further elements, then the closing bracket. -/
def readListTail : List Token → Option (List Nat)
  | [.rbracket] => some []
  | .comma :: .num n :: ts => (readListTail ts).map (n :: ·)
  | _ => none

/-- A byte list after its opening bracket (R81). -/
def readList : List Token → Option (List Nat)
  | [.rbracket] => some []
  | .num n :: ts => (readListTail ts).map (n :: ·)
  | _ => none

/-- A line whose one operand is a queue. -/
def queueLine (m q : List Char) : Option AsmLine :=
  if m = "POP".toList then (queueNamed q).map .pop
  else if m = "POP_ALL".toList then (queueNamed q).map .popAll
  else if m = "LEN".toList then (queueNamed q).map .len
  else if m = "FRONT_PEEK".toList then (queueNamed q).map .frontPeek
  else if m = "BACK_PEEK".toList then (queueNamed q).map .backPeek
  else if m = "IS_EMPTY".toList then (queueNamed q).map .isEmpty
  else if m = "IS_FULL".toList then (queueNamed q).map .isFull
  else if m = "PEEK".toList then (queueNamed q).map .peek
  else none

/-- A line whose one operand is a channel. -/
def channelLine (m ch : List Char) : Option AsmLine :=
  if m = "READ_STATUS".toList then (channelNamed ch).map .readStatus
  else if m = "INIT".toList then (channelNamed ch).map .init
  else if m = "RECV".toList then (channelNamed ch).map .recv
  else none

/-- The line a list of tokens spells (R81, R82); none when it spells no line. -/
def parseTokens : List Token → Option AsmLine
  | [.name m] =>
    if m = "DI".toList then some .di else if m = "EI".toList then some .ei else none
  | [.name m, .num v] =>
    if m = "IESWAP".toList then some (.ieswap v) else if m = "RESTORE".toList then some (.restore v) else none
  | [.name m, .name a] => (queueLine m a).or (channelLine m a)
  | [.name m, .name a, .comma, .num b] =>
    if m = "PUSH".toList then (queueNamed a).map (fun q => .push q b)
    else if m = "TRANSMIT".toList then (channelNamed a).map (fun ch => .transmit ch b)
    else none
  | .name m :: .name a :: .comma :: .lbracket :: ts =>
    if m = "PUSH_MANY".toList then
      match queueNamed a, readList ts with
      | some q, some bs => some (.pushMany q bs)
      | _, _ => none
    else none
  | _ => none

/-- The words of a line of text; none when the assembler rejects it. -/
def assembleText (line : String) : Option (List Word) :=
  match parseTokens (lexLine [] line.toList) with
  | none => none
  | some l => (assemble l).map encode

end Sys2Proof.Machine
end

