-- ==== Sys2Proof/Safety.lean ====
section
/-! DEFINITION. The terms in which claims about the block are stated: its invariant (10_state.md R24), what a reset state
is (R37), which states a run reaches, frames, the stalls (70_reset_and_hazards.md R228 to R230), what FG can observe
(R35, R36), the end of a run (R212), runs and their fairness (R200), and the list FIFO a queue stands for (R58). -/

namespace Sys2Proof.Machine

/-! ## The queue invariant -/

/-- The queue invariant (R23, R24): exactly C cells, `front` in [0, C), `len` in [0, C]. -/
abbrev Queue.Wf (c : Capacity) (q : Queue) : Prop :=
  q.buf.length = c.val ∧ q.front.toNat < c.val ∧ q.len.toNat ≤ c.val

/-- All four queues keep their invariant. -/
abbrev State.Inv (s : State) : Prop :=
  s.btx.Wf s.params.cBtx ∧ s.brx.Wf s.params.cBrx ∧ s.utx.Wf s.params.cUtx ∧ s.urx.Wf s.params.cUrx

/-- `content(Q)` of a queue of the state, oldest first (R24). -/
def State.content (s : State) (q : QueueId) : List Byte := (s.queue q).content (s.cap q)

/-! ## Reset and reachable states -/

/-- The queue is as reset leaves it (R37): its C cells hold any bytes. -/
abbrev Queue.IsReset (c : Capacity) (q : Queue) : Prop := q.buf.length = c.val ∧ q.front = 0#16 ∧ q.len = 0#16

/-- Everything R37 gives a reset value has it, and nothing has been observed yet. The storage cells, the parameters
and the inputs (`fg`, `sched`, `tick`) are any. -/
structure State.IsReset (s : State) : Prop where
  btx : s.btx.IsReset s.params.cBtx
  brx : s.brx.IsReset s.params.cBrx
  utx : s.utx.IsReset s.params.cUtx
  urx : s.urx.IsReset s.params.cUrx
  busStatus : s.busStatus = .idle
  uartStatus : s.uartStatus = .txIdle
  ie : s.ie = false
  pendBus : s.pendBus = false
  pendUtx : s.pendUtx = false
  pendUrx : s.pendUrx = false
  phyBusyBus : s.phyBusyBus = false
  phyBusyUtx : s.phyBusyUtx = false
  out : s.out = []

/-- The states a run from reset reaches, whatever FG issues and the environment chooses. -/
inductive Reachable : State → Prop where
  | reset {s : State} (h : s.IsReset) : Reachable s
  | step {s t : State} (h : Reachable s) (hs : step s = .next t) : Reachable t

/-! ## Frames -/

/-- The parameters and the inputs are unchanged. -/
structure KeepsInputs (s t : State) : Prop where
  params : t.params = s.params
  fg : t.fg = s.fg
  sched : t.sched = s.sched
  tick : t.tick = s.tick

/-- IE, every pending latch and every busy latch are unchanged. -/
structure KeepsLatches (s t : State) : Prop where
  ie : t.ie = s.ie
  pend : ∀ e, t.pend e = s.pend e
  phyBusy : ∀ p, t.phyBusy p = s.phyBusy p

/-- Both status registers are unchanged. -/
structure KeepsStatus (s t : State) : Prop where
  bus : t.busStatus = s.busStatus
  uart : t.uartStatus = s.uartStatus

/-- Every queue is unchanged but for the named ones, cells and counters alike. -/
def KeepsQueuesBut (changed : List QueueId) (s t : State) : Prop := ∀ q, q ∉ changed → t.queue q = s.queue q

/-- The frame of a FIFO command on a queue: only that queue and the observation may change. -/
structure KeepsAllBut (q : QueueId) (s t : State) : Prop where
  queues : KeepsQueuesBut [q] s t
  status : KeepsStatus s t
  latches : KeepsLatches s t
  inputs : KeepsInputs s t

/-- The spec's own state (R20) and the observation are unchanged. -/
structure SameBlock (s t : State) : Prop where
  queues : ∀ q, t.queue q = s.queue q
  status : KeepsStatus s t
  latches : KeepsLatches s t
  out : t.out = s.out

/-- Everything of the BUS channel is unchanged. -/
structure KeepsBus (s t : State) : Prop where
  btx : t.btx = s.btx
  brx : t.brx = s.brx
  status : t.busStatus = s.busStatus
  pend : t.pendBus = s.pendBus
  phyBusy : t.phyBusyBus = s.phyBusyBus

/-- Everything of the UART channel is unchanged. -/
structure KeepsUart (s t : State) : Prop where
  utx : t.utx = s.utx
  urx : t.urx = s.urx
  status : t.uartStatus = s.uartStatus
  pendTx : t.pendUtx = s.pendUtx
  pendRx : t.pendUrx = s.pendUrx
  phyBusy : t.phyBusyUtx = s.phyBusyUtx

/-- What every step that is not FG's leaves: the parameters, the command port and IE. -/
structure KeepsPort (s t : State) : Prop where
  params : t.params = s.params
  fg : t.fg = s.fg
  ie : t.ie = s.ie

/-! ## Events -/

/-- ARB_ORDER allows the source (R201): the order is FREE, or no source before it in the fixed list is pending. -/
def ArbAllowed (s : State) (e : EventSource) : Prop :=
  s.params.arbOrder = .free ∨
    ∃ order, s.params.arbOrder = .fixed order ∧
      ∃ pre post, order.val = pre ++ e :: post ∧ ∀ e' ∈ pre, s.pend e' = false

/-- The next step is an enabled dispatch of the source with these draws (R196), and `ms` are the choices after it. -/
structure Dispatches (s : State) (e : EventSource) (d : Draws) (ms : List Move) : Prop where
  sched : s.sched = .dispatch e d :: ms
  ie : s.ie = true
  pend : s.pend e = true
  allowed : ArbAllowed s e

/-- The send half of a handler (R160, R162): the oldest byte of the send queue, if there is one, is taken out and
written to the peripheral; otherwise nothing happens. -/
def SendsOldest (ch : Channel) (s t : State) : Prop :=
  match s.content (txq ch) with
  | [] => t.queue (txq ch) = s.queue (txq ch) ∧ t.out = s.out ∧ t.phyBusy (pathOf ch) = s.phyBusy (pathOf ch)
  | b :: rest =>
    t.content (txq ch) = rest ∧ t.out = s.out ++ [.write ch b] ∧ t.phyBusy (pathOf ch) = true

/-- The send half did not run: queue, output and busy latch are unchanged. -/
def SendsNothing (ch : Channel) (s t : State) : Prop :=
  t.queue (txq ch) = s.queue (txq ch) ∧ t.out = s.out ∧ t.phyBusy (pathOf ch) = s.phyBusy (pathOf ch)

/-! ## Stalled channels -/

/-- The BUS channel is stalled (R228, R229): its status is not `Idle`, no byte is on the wire and no event is pending. -/
abbrev BusStalled (s : State) : Prop :=
  s.busStatus ≠ .idle ∧ s.phyBusyBus = false ∧ s.pendBus = false

/-- The UART transmit path is stalled (R230): the status is not `TxIdle`, no byte is out and no UTX_EV is pending. -/
abbrev UartTxStalled (s : State) : Prop :=
  s.uartStatus ≠ .txIdle ∧ s.phyBusyUtx = false ∧ s.pendUtx = false

/-- The next step runs the command: the choice is FG's and the port holds its words first. -/
def RunsCommand (s : State) (i : Instr) : Prop :=
  nextMove s = .fg ∧ ∃ h payload rest, frame s.fg = some (h, payload, rest) ∧ decode h payload = .command i

/-! ## What FG can observe -/

/-- Two queues FG cannot tell apart (R35, R36): the same content. `front` and the cells outside the content may differ. -/
def Queue.ObsEq (c : Capacity) (q r : Queue) : Prop := q.content c = r.content c

/-- Two states FG cannot tell apart, now or later: everything is equal but `front` and the cells outside the content. -/
structure ObsEq (s t : State) : Prop where
  btx : s.btx.ObsEq s.params.cBtx t.btx
  brx : s.brx.ObsEq s.params.cBrx t.brx
  utx : s.utx.ObsEq s.params.cUtx t.utx
  urx : s.urx.ObsEq s.params.cUrx t.urx
  status : KeepsStatus s t
  latches : KeepsLatches s t
  inputs : KeepsInputs s t
  out : t.out = s.out

/-! ## The end of a run, runs, fairness -/

/-- The run has ended (R212): FG has no further command, no dispatch is enabled for want of IE or of a latch, and no
transmit path is busy. -/
def RunEnded (s : State) : Prop :=
  frame s.fg = none ∧ (s.ie = false ∨ ∀ e, s.pend e = false) ∧ ∀ p, s.phyBusy p = false

/-- An infinite run of the step function. FG issues finitely many commands in it (log 17). -/
def IsRun (r : Nat → State) : Prop := ∀ n, step (r n) = .next (r (n + 1))

/-- Weak fairness of completion (R200 b): a transmit path that stays busy eventually completes. -/
def FairCompletion (r : Nat → State) : Prop :=
  ∀ p n, (∀ m, n ≤ m → (r m).phyBusy p = true) → ∃ m, n ≤ m ∧ nextMove (r m) = .complete p

/-- Weak fairness of dispatch (R200 a): a source that stays pending and allowed with IE = 1 is eventually dispatched. -/
def FairDispatch (r : Nat → State) : Prop :=
  ∀ e n, (∀ m, n ≤ m → canDispatch (r m) e = true) → ∃ m d, n ≤ m ∧ nextMove (r m) = .dispatch e d

/-! ## A queue as a list FIFO -/

/-- An operation on one queue: the primitives of 40_fifo_commands.md R100 to R106. -/
inductive QOp where
  | push (b : Byte)
  | pushMany (bs : List Byte)
  | pop
  | popAll
  | len
  | front
  | back
deriving DecidableEq, Repr

/-- What an operation answers: its result code and its value. -/
abbrev QAnswer := RC × Half

/-- One operation on the ring buffer, by the model's primitives. -/
def ringOp (c : Capacity) (q : Queue) : QOp → QAnswer × Queue
  | .push b => (((qPush c q b).1, 0#16), (qPush c q b).2)
  | .pushMany bs => (((qPushMany c q bs).1, 0#16), (qPushMany c q bs).2)
  | .pop => (((qPop c q).1, zext16 (qPop c q).2.1), (qPop c q).2.2)
  | .popAll => ((.ok, 0#16), qPopAll q)
  | .len => ((.ok, qLen q), q)
  | .front => (((qFront q).1, zext16 (qFront q).2), q)
  | .back => (((qBack c q).1, zext16 (qBack c q).2), q)

/-- The same operation on a list of at most `cap` bytes, oldest first: push at the back, pop at the front. -/
def listOp (cap : Nat) (l : List Byte) : QOp → QAnswer × List Byte
  | .push b => if l.length = cap then ((.full, 0#16), l) else ((.ok, 0#16), l ++ [b])
  | .pushMany bs =>
    if cap < bs.length then ((.tooMany, 0#16), l)
    else if cap < l.length + bs.length then ((.full, 0#16), l)
    else ((.ok, 0#16), l ++ bs)
  | .pop =>
    match l with
    | [] => ((.empty, 0#16), [])
    | b :: rest => ((.ok, zext16 b), rest)
  | .popAll => ((.ok, 0#16), [])
  | .len => ((.ok, BitVec.ofNat 16 l.length), l)
  | .front =>
    match l with
    | [] => ((.empty, 0#16), l)
    | b :: _ => ((.ok, zext16 b), l)
  | .back =>
    match l.getLast? with
    | none => ((.empty, 0#16), l)
    | some b => ((.ok, zext16 b), l)

/-- A sequence of operations on the ring buffer: the answers in order, and the queue at the end. -/
def runRing (c : Capacity) (q : Queue) : List QOp → List QAnswer × Queue
  | [] => ([], q)
  | op :: ops => ((ringOp c q op).1 :: (runRing c (ringOp c q op).2 ops).1, (runRing c (ringOp c q op).2 ops).2)

/-- The same sequence on the list. -/
def runList (cap : Nat) (l : List Byte) : List QOp → List QAnswer × List Byte
  | [] => ([], l)
  | op :: ops =>
    ((listOp cap l op).1 :: (runList cap (listOp cap l op).2 ops).1, (runList cap (listOp cap l op).2 ops).2)

/-- The bytes an operation adds to the ring buffer: those it was given when it answers OK. -/
def addedBy (c : Capacity) (q : Queue) : QOp → List Byte
  | .push b => if (qPush c q b).1 = .ok then [b] else []
  | .pushMany bs => if (qPushMany c q bs).1 = .ok then bs else []
  | .pop | .popAll | .len | .front | .back => []

/-- The byte an operation removes by `q_pop`. -/
def removedBy (c : Capacity) (q : Queue) : QOp → List Byte
  | .pop => if (qPop c q).1 = .ok then [(qPop c q).2.1] else []
  | .push _ | .pushMany _ | .popAll | .len | .front | .back => []

/-- All bytes a sequence of operations adds, in the order they were added. -/
def added (c : Capacity) (q : Queue) : List QOp → List Byte
  | [] => []
  | op :: ops => addedBy c q op ++ added c (ringOp c q op).2 ops

/-- All bytes a sequence of operations removes by `q_pop`, in the order they come out. -/
def removed (c : Capacity) (q : Queue) : List QOp → List Byte
  | [] => []
  | op :: ops => removedBy c q op ++ removed c (ringOp c q op).2 ops

end Sys2Proof.Machine
end

