-- ==== Sys2Proof/Certificates/Slice0/Obligations.lean ====
section
/-! DEFINITION. The statements about the model, for the provers. Each docstring names the rules of spec/ it formalises.
Encodings, code numbers, the pending and busy latches, IE and command atomicity are numbered rules of the spec that
the spec marks as its own decisions (92_eei_decisions.md); they are not the model's choices. -/

open Sys2Proof Sys2Proof.Machine

/-! ## Reset and invariants -/

/-- R37: every piece of state has its reset value, for every parameters and every storage contents. -/
def Obligations.PowerOnStateIsTheResetTable : Prop :=
  (∀ p : Params, (State.resetWith p).IsReset ∧ (State.resetWith p).params = p) ∧
  ∀ s : State, s.IsReset →
    (∀ q, (s.queue q).front = 0#16 ∧ (s.queue q).len = 0#16 ∧ (s.queue q).isEmpty = true ∧
      (s.queue q).isFull (s.cap q) = false) ∧
    (∀ ch, s.statusCode ch = 0x00#8 ∧ s.statusIsIdle ch = true) ∧
    s.ie = false ∧ (∀ e, s.pend e = false) ∧ ∀ p, s.phyBusy p = false

/-- R24 at power-on: every reset state has the queue invariant. -/
def Obligations.QueueInvariantHoldsAtReset : Prop := ∀ s : State, s.IsReset → s.Inv

/-- R24, R25: every step of every agent keeps the queue invariant, from every state that has it. -/
def Obligations.EveryStepKeepsTheQueueInvariant : Prop :=
  ∀ s t : State, s.Inv → step s = .next t → t.Inv

/-- R24: in every reachable state `len` is at most C, and the element at offset i is in the cell `(front + i) mod C`. -/
def Obligations.QueueInvariantHoldsInEveryReachableState : Prop :=
  ∀ s : State, Reachable s → ∀ q,
    (s.queue q).len.toNat ≤ (s.cap q).val ∧ (s.content q).length = (s.queue q).len.toNat ∧
    ∀ i, i < (s.queue q).len.toNat →
      (s.content q)[i]? = (s.queue q).buf[((s.queue q).front.toNat + i) % (s.cap q).val]?

/-- R7: no step changes a parameter ("never resized at runtime"). -/
def Obligations.NoStepChangesAParameter : Prop := ∀ s t : State, step s = .next t → t.params = s.params

/-! ## Encoding -/

/-- R71 to R74, R80: a well-formed command's words, whatever follows them on the port, decode to the command. -/
def Obligations.DecodingAnEncodedCommandGivesItBack : Prop :=
  ∀ (i : Instr) (rest : List Word), i.wellFormed = true → decodeStream (encode i ++ rest) = some (.command i, rest)

/-- R74, R75: each word has one meaning: the words that decode to a command are that command's encoding. -/
def Obligations.OnlyItsEncodingDecodesToACommand : Prop :=
  ∀ (h : Word) (payload : List Word) (i : Instr), payload.length = payloadLength h →
    decode h payload = .command i → i.wellFormed = true ∧ encode i = h :: payload

/-- R74: headers written out from the spec's tables decode to their commands. -/
def Obligations.SpecifiedHeaderWordsDecode : Prop :=
  decode 0x10000009#32 [] = .command (.push .btx 9#8) ∧
  decode 0x2C000002#32 [0x00000022#32, 0x00000033#32] = .command (.pushMany .urx [0x22#8, 0x33#8]) ∧
  decode 0x38000000#32 [] = .command (.pop .utx) ∧
  decode 0x44000000#32 [] = .command (.popAll .brx) ∧
  decode 0xA8000041#32 [] = .command (.transmit .uart 0x41#8) ∧
  decode 0xC0000000#32 [] = .command (.init .bus) ∧
  decode 0xD0000001#32 [] = .command (.ieswap true) ∧
  decode 0x00000000#32 [] = .illegal .reservedOpcode

/-- R75: a command is illegal exactly when one of the six listed conditions holds. -/
def Obligations.IllegalExactlyWhenAListedConditionHolds : Prop :=
  ∀ (h : Word) (payload : List Word),
    (∃ why, decode h payload = .illegal why) ↔
      (h.extractLsb' 28 4 = 0x0#4 ∨ h.extractLsb' 28 4 = 0xE#4 ∨ h.extractLsb' 28 4 = 0xF#4) ∨
      h.extractLsb' 16 10 ≠ 0#10 ∨
      ((h.extractLsb' 28 4 = 0x1#4 ∨ h.extractLsb' 28 4 = 0xA#4) ∧ h.extractLsb' 8 8 ≠ 0#8 ∨
        h.extractLsb' 28 4 = 0xD#4 ∧ h.extractLsb' 1 15 ≠ 0#15 ∨
        (h.extractLsb' 28 4 ≠ 0x1#4 ∧ h.extractLsb' 28 4 ≠ 0xA#4 ∧ h.extractLsb' 28 4 ≠ 0x2#4 ∧
          h.extractLsb' 28 4 ≠ 0xD#4) ∧ h.extractLsb' 0 16 ≠ 0#16) ∨
      ((h.extractLsb' 28 4 = 0xA#4 ∨ h.extractLsb' 28 4 = 0xB#4 ∨ h.extractLsb' 28 4 = 0xC#4) ∧
        h.getLsbD 26 = true) ∨
      (h.extractLsb' 28 4 = 0xD#4 ∧ (h.getLsbD 27 = true ∨ h.getLsbD 26 = true)) ∨
      (h.extractLsb' 28 4 = 0x2#4 ∧ ∃ w ∈ payload, w.extractLsb' 8 24 ≠ 0#24)

/-- R74: a header is a legal command exactly when it matches a row of the opcode map, and it matches at most one. -/
def Obligations.LegalHeaderMatchesExactlyOneOpcodeRow : Prop :=
  ∀ (h : Word) (payload : List Word), (∀ w ∈ payload, w.extractLsb' 8 24 = 0#24) →
    (legal h payload = true ↔ ∃ r ∈ opcodeRows, r.matches h = true) ∧
    ∀ r₁ ∈ opcodeRows, ∀ r₂ ∈ opcodeRows, r₁.matches h = true → r₂.matches h = true → r₁ = r₂

/-- R80: a command has `1 + n` words for PUSH_MANY and one word otherwise, whether it is legal or not; the words after
them begin the next command. That a stream that holds fewer words than that holds no command yet is the model's
reading of R70 and R80 (log 10). -/
def Obligations.FramingFollowsOpcodeAndCountAlone : Prop :=
  ∀ (h : Word) (payload rest : List Word),
    payload.length = (if h.extractLsb' 28 4 = 0x2#4 then (h.extractLsb' 0 16).toNat else 0) →
    frame (h :: (payload ++ rest)) = some (h, payload, rest) ∧
    ∀ n, n < payload.length → frame (h :: payload.take n) = none

/-- R81, R82 (the operand checks and the expansions; the reading of text is not stated here): what an assembler rejects,
and what the pseudo-instructions stand for. -/
def Obligations.AssemblerRejectsWideOperandsAndExpandsPseudoInstructions : Prop :=
  (∀ q n, assemble (.push q n) = none ↔ 255 < n) ∧
  (∀ ch n, assemble (.transmit ch n) = none ↔ 255 < n) ∧
  (∀ q ns, assemble (.pushMany q ns) = none ↔ 65535 < ns.length ∨ ∃ n ∈ ns, 255 < n) ∧
  (∀ n, assemble (.ieswap n) = none ↔ 1 < n) ∧
  (∀ l i, assemble l = some i → i.wellFormed = true) ∧
  assemble .di = some (.ieswap false) ∧ assemble .ei = some (.ieswap true) ∧
  (∀ n, assemble (.restore n) = assemble (.ieswap n)) ∧
  (∀ ch, assemble (.recv ch) = some (.pop (rxq ch))) ∧ ∀ q, assemble (.peek q) = some (.frontPeek q)

/-! ## FIFO commands. Each statement gives the next state of the command, so it says that the command completes. -/

/-- R100, R110: PUSH stores the byte at `(front + len) mod C` when there is room; on a full queue it answers FULL and the
queue, cells included, is as before. Nothing else changes. -/
def Obligations.PushStoresAtTheBackOrAnswersFull : Prop :=
  ∀ (q : QueueId) (b : Byte) (s : State), s.Inv →
    ∃ t, exec (.push q b) s = .next t ∧ KeepsAllBut q s t ∧
      (if (s.queue q).len.toNat = (s.cap q).val then
        t.queue q = s.queue q ∧ t.out = s.out ++ [.response 0x10000000#32]
      else
        t.content q = s.content q ++ [b] ∧
        (t.queue q).front = (s.queue q).front ∧ (t.queue q).len.toNat = (s.queue q).len.toNat + 1 ∧
        (t.queue q).buf =
          (s.queue q).buf.set (((s.queue q).front.toNat + (s.queue q).len.toNat) % (s.cap q).val) b ∧
        t.out = s.out ++ [.response 0x00000000#32])

/-- R101, R111: PUSH_MANY is all or nothing: TOOMANY when n > C whatever the occupancy, otherwise FULL when the n bytes do
not fit, otherwise all n bytes are appended in order. Nothing else changes. -/
def Obligations.PushManyAppendsAllOrNothing : Prop :=
  ∀ (q : QueueId) (bs : List Byte) (s : State), s.Inv →
    ∃ t, exec (.pushMany q bs) s = .next t ∧ KeepsAllBut q s t ∧
      (if (s.cap q).val < bs.length then
        t.queue q = s.queue q ∧ t.out = s.out ++ [.response 0x30000000#32]
      else if (s.cap q).val < (s.queue q).len.toNat + bs.length then
        t.queue q = s.queue q ∧ t.out = s.out ++ [.response 0x10000000#32]
      else
        t.content q = s.content q ++ bs ∧
        (t.queue q).front = (s.queue q).front ∧ (t.queue q).len.toNat = (s.queue q).len.toNat + bs.length ∧
        (∀ i, i < bs.length →
          (t.queue q).buf[((s.queue q).front.toNat + (s.queue q).len.toNat + i) % (s.cap q).val]? = bs[i]?) ∧
        (∀ j, (∀ i, i < bs.length →
            j ≠ ((s.queue q).front.toNat + (s.queue q).len.toNat + i) % (s.cap q).val) →
          (t.queue q).buf[j]? = (s.queue q).buf[j]?) ∧
        t.out = s.out ++ [.response 0x00000000#32])

/-- R101: when `q_push_many` answers OK, its result is that of n successive `q_push` calls, each of which answers OK. -/
def Obligations.PushManyIsRepeatedPush : Prop :=
  ∀ (c : Capacity) (q : Queue) (bs : List Byte), q.Wf c → (qPushMany c q bs).1 = .ok →
    (qPushMany c q bs).2 = bs.foldl (fun r b => (qPush c r b).2) q ∧
    ∀ pre b post, bs = pre ++ b :: post → (qPush c (pre.foldl (fun r b => (qPush c r b).2) q) b).1 = .ok

/-- R102, R112: POP removes the oldest byte and answers it, advancing `front` modulo C and leaving every cell; on an empty
queue it answers EMPTY with VALUE 0 and changes nothing. -/
def Obligations.PopTakesTheOldestByteOrAnswersEmpty : Prop :=
  ∀ (q : QueueId) (s : State), s.Inv →
    ∃ t, exec (.pop q) s = .next t ∧ KeepsAllBut q s t ∧
      (if (s.queue q).len = 0#16 then
        t.queue q = s.queue q ∧ t.out = s.out ++ [.response 0x20000000#32]
      else
        ∃ b, s.content q = b :: t.content q ∧
          (t.queue q).front.toNat = ((s.queue q).front.toNat + 1) % (s.cap q).val ∧
          (t.queue q).len.toNat + 1 = (s.queue q).len.toNat ∧
          (t.queue q).buf = (s.queue q).buf ∧ t.out = s.out ++ [.response (0#24 ++ b)])

/-- R103, R113: POP_ALL empties the queue from any state, resets `front` and `len`, and zeroes no cell. -/
def Obligations.PopAllEmptiesTheQueue : Prop :=
  ∀ (q : QueueId) (s : State),
    ∃ t, exec (.popAll q) s = .next t ∧ KeepsAllBut q s t ∧
      t.content q = [] ∧ (t.queue q).front = 0#16 ∧ (t.queue q).len = 0#16 ∧
      (t.queue q).buf = (s.queue q).buf ∧ (t.queue q).isEmpty = true ∧ (t.queue q).isFull (t.cap q) = false ∧
      t.out = s.out ++ [.response 0x00000000#32]

/-- R104, R114: LEN answers the number of bytes the queue holds and changes nothing. -/
def Obligations.LenAnswersTheOccupancy : Prop :=
  ∀ (q : QueueId) (s : State),
    ∃ t, exec (.len q) s = .next t ∧ KeepsAllBut q s t ∧ t.queue q = s.queue q ∧
      t.out = s.out ++ [.response (BitVec.ofNat 32 (s.content q).length)]

/-- R105, R106, R115, R116: the peeks answer the oldest and the newest byte, or EMPTY, and change nothing. -/
def Obligations.PeeksReadTheEndsWithoutRemoving : Prop :=
  ∀ (q : QueueId) (s : State), s.Inv →
    (∃ t, exec (.frontPeek q) s = .next t ∧ KeepsAllBut q s t ∧ t.queue q = s.queue q ∧
      t.out = s.out ++ [.response (match (s.content q).head? with
        | none => 0x20000000#32
        | some b => 0#24 ++ b)]) ∧
    ∃ t, exec (.backPeek q) s = .next t ∧ KeepsAllBut q s t ∧ t.queue q = s.queue q ∧
      t.out = s.out ++ [.response (match (s.content q).getLast? with
        | none => 0x20000000#32
        | some b => 0#24 ++ b)]

/-- R27, R117, R118: IS_EMPTY and IS_FULL answer 1 exactly when the queue holds no byte, and C bytes; never both. -/
def Obligations.FlagTestsAnswerTheDerivedFlags : Prop :=
  ∀ (q : QueueId) (s : State),
    (∃ t, exec (.isEmpty q) s = .next t ∧ KeepsAllBut q s t ∧ t.queue q = s.queue q ∧
      t.out = s.out ++ [.response (if s.content q = [] then 1#32 else 0#32)]) ∧
    (∃ t, exec (.isFull q) s = .next t ∧ KeepsAllBut q s t ∧ t.queue q = s.queue q ∧
      t.out = s.out ++ [.response (if (s.content q).length = (s.cap q).val then 1#32 else 0#32)]) ∧
    ¬(s.content q = [] ∧ (s.content q).length = (s.cap q).val)

/-! ## A queue is a FIFO -/

/-- R58 from R24 and R100 to R106: whatever `front` is, every sequence of operations on the ring buffer gives the answers
a list FIFO of the same capacity gives, ends with the same content, and keeps the invariant. -/
def Obligations.RingBufferRefinesTheListFifo : Prop :=
  ∀ (c : Capacity) (q : Queue) (ops : List QOp), q.Wf c →
    (runRing c q ops).1 = (runList c.val (q.content c) ops).1 ∧
    (runRing c q ops).2.content c = (runList c.val (q.content c) ops).2 ∧ (runRing c q ops).2.Wf c

/-- R58: the bytes that `q_pop` removes come out in the order they were added; without `q_pop_all` none is lost. -/
def Obligations.BytesComeOutInTheOrderTheyWereAdded : Prop :=
  ∀ (c : Capacity) (q : Queue) (ops : List QOp), q.Wf c →
    (removed c q ops).Sublist (q.content c ++ added c q ops) ∧
    (QOp.popAll ∉ ops → q.content c ++ added c q ops = removed c q ops ++ (runRing c q ops).2.content c)

/-! ## Channel commands -/

/-- R140: TRANSMIT pushes to the send queue and arms the channel's event when the status is idle; on a full queue it
only sets the overflow status; it always answers OK. -/
def Obligations.TransmitQueuesAndArmsOrOverflows : Prop :=
  ∀ (ch : Channel) (b : Byte) (s : State), s.Inv →
    ∃ t, exec (.transmit ch b) s = .next t ∧
      KeepsQueuesBut [txq ch] s t ∧ KeepsInputs s t ∧ t.ie = s.ie ∧ (∀ p, t.phyBusy p = s.phyBusy p) ∧
      (∀ e, e ≠ txev ch → t.pend e = s.pend e) ∧ t.out = s.out ++ [.response 0x00000000#32] ∧
      (if (s.queue (txq ch)).len.toNat = (s.cap (txq ch)).val then
        t.queue (txq ch) = s.queue (txq ch) ∧ t.pend (txev ch) = s.pend (txev ch) ∧
        match ch with
        | .bus => t.busStatus = .bufferOverflow ∧ t.uartStatus = s.uartStatus
        | .uart => t.uartStatus = .overflow ∧ t.busStatus = s.busStatus
      else
        t.content (txq ch) = s.content (txq ch) ++ [b] ∧ KeepsStatus s t ∧
        (t.queue (txq ch)).front = (s.queue (txq ch)).front ∧
        (t.queue (txq ch)).buf = (s.queue (txq ch)).buf.set
          (((s.queue (txq ch)).front.toNat + (s.queue (txq ch)).len.toNat) % (s.cap (txq ch)).val) b ∧
        t.pend (txev ch) = (s.pend (txev ch) ||
          match ch with
          | .bus => s.busStatus == .idle
          | .uart => s.uartStatus == .txIdle))

/-- R28, R29, R141: READ_STATUS answers the channel's status register, zero-extended, and changes nothing. -/
def Obligations.ReadStatusAnswersTheStatusRegister : Prop :=
  ∀ (ch : Channel) (s : State),
    ∃ t, exec (.readStatus ch) s = .next t ∧ (∀ q, t.queue q = s.queue q) ∧ KeepsStatus s t ∧ KeepsLatches s t ∧
      KeepsInputs s t ∧
      t.out = s.out ++ [.response (match ch with
        | .bus =>
          match s.busStatus with
          | .idle => 0#32
          | .busy => 1#32
          | .bufferOverflow => 2#32
          | .collision => 3#32
        | .uart =>
          match s.uartStatus with
          | .txIdle => 0#32
          | .txBusy => 1#32
          | .frameError => 2#32
          | .parityError => 3#32
          | .dataOverrun => 4#32
          | .overflow => 5#32)]

/-- R142: INIT empties both queues of the channel, sets its status idle and clears its latches; IE, PHY_BUSY, the cells
and the other channel are unchanged. -/
def Obligations.InitReinitialisesOneChannel : Prop :=
  ∀ (ch : Channel) (s : State),
    ∃ t, exec (.init ch) s = .next t ∧
      (∀ q, q = txq ch ∨ q = rxq ch →
        t.content q = [] ∧ (t.queue q).front = 0#16 ∧ (t.queue q).len = 0#16 ∧ (t.queue q).buf = (s.queue q).buf) ∧
      t.statusCode ch = 0x00#8 ∧ t.statusIsIdle ch = true ∧
      t.ie = s.ie ∧ (∀ p, t.phyBusy p = s.phyBusy p) ∧ KeepsInputs s t ∧
      t.out = s.out ++ [.response 0x00000000#32] ∧
      match ch with
      | .bus => t.pendBus = false ∧ KeepsUart s t
      | .uart => t.pendUtx = false ∧ t.pendUrx = false ∧ KeepsBus s t

/-- R32, R143: IESWAP writes IE and answers the old value; it changes nothing else, no pending latch among it. -/
def Obligations.IeswapSwapsTheEnable : Prop :=
  ∀ (v : Bool) (s : State),
    ∃ t, exec (.ieswap v) s = .next t ∧ t.ie = v ∧ (∀ q, t.queue q = s.queue q) ∧ KeepsStatus s t ∧
      (∀ e, t.pend e = s.pend e) ∧ (∀ p, t.phyBusy p = s.phyBusy p) ∧ KeepsInputs s t ∧
      t.out = s.out ++ [.response (if s.ie then 1#32 else 0#32)]

/-! ## Rules over all commands -/

/-- R70, R77, R78, R191: every command answers with exactly one response word `{RC, 0, VALUE}`; VALUE is 0 whenever RC is
not OK; a decoded command never answers ILLEGAL, and only the five named ones answer other than OK. No command writes
to the peripheral or touches a busy latch, the parameters or the inputs. -/
def Obligations.EveryCommandAnswersExactlyOnce : Prop :=
  ∀ (i : Instr) (s : State),
    ∃ t rc v, exec i s = .next t ∧ t.out = s.out ++ [.response (RC.code rc ++ 0#12 ++ v)] ∧
      (rc ≠ .ok → v = 0#16) ∧ rc ≠ .illegal ∧
      (rc ≠ .ok → (∃ q b, i = .push q b ∧ rc = .full) ∨ (∃ q bs, i = .pushMany q bs ∧ (rc = .full ∨ rc = .tooMany)) ∨
        ∃ q, (i = .pop q ∨ i = .frontPeek q ∨ i = .backPeek q) ∧ rc = .empty) ∧
      (∀ p, t.phyBusy p = s.phyBusy p) ∧ KeepsInputs s t

/-- R195, R227: among commands only TRANSMIT sets a pending latch, its channel's, from the idle status and with room; only
INIT clears one, of its channel. -/
def Obligations.OnlyTransmitArmsAndOnlyInitDisarms : Prop :=
  ∀ (i : Instr) (s t : State) (e : EventSource), exec i s = .next t →
    (s.pend e = false → t.pend e = true →
      ∃ ch b, i = .transmit ch b ∧ e = txev ch ∧ s.statusIsIdle ch = true ∧
        (s.queue (txq ch)).len.toNat ≠ (s.cap (txq ch)).val) ∧
    (s.pend e = true → t.pend e = false →
      i = .init .bus ∧ e = .busEv ∨ i = .init .uart ∧ (e = .utxEv ∨ e = .urxEv))

/-- R30, R31: among commands only TRANSMIT on a full send queue and INIT write a status register, with the values of R30. -/
def Obligations.OnlyFullTransmitAndInitWriteAStatus : Prop :=
  ∀ (i : Instr) (s t : State), exec i s = .next t →
    (t.busStatus ≠ s.busStatus →
      (∃ b, i = .transmit .bus b ∧ s.btx.len.toNat = s.params.cBtx.val ∧ t.busStatus = .bufferOverflow) ∨
      i = .init .bus ∧ t.busStatus = .idle) ∧
    (t.uartStatus ≠ s.uartStatus →
      (∃ b, i = .transmit .uart b ∧ s.utx.len.toNat = s.params.cUtx.val ∧ t.uartStatus = .overflow) ∨
      i = .init .uart ∧ t.uartStatus = .txIdle)

/-! ## Steps -/

/-- R194: when the choice is FG's and the port holds a whole command that decodes, the step is that command's meaning;
the step takes the choice and the words and records the command before the response. A well-formed command's words
are such a case. -/
def Obligations.StepRunsTheDecodedCommand : Prop :=
  (∀ (s : State) (ms : List Move) (h : Word) (payload rest : List Word) (i : Instr),
    s.sched = .fg :: ms → s.fg = h :: (payload ++ rest) → payload.length = payloadLength h →
    decode h payload = .command i →
    step s = exec i (((s.setSched ms).setFg rest).emit (.command h payload))) ∧
  ∀ (s : State) (ms : List Move) (rest : List Word) (i : Instr),
    s.sched = .fg :: ms → i.wellFormed = true → s.fg = encode i ++ rest →
    ∃ h payload, encode i = h :: payload ∧
      step s = exec i (((s.setSched ms).setFg rest).emit (.command h payload))

/-- R75, R76: an illegal command is answered `(ILLEGAL, 0)` and changes no state; its payload words are consumed (R80). -/
def Obligations.IllegalCommandIsAnsweredAndChangesNothing : Prop :=
  ∀ (s : State) (ms : List Move) (h : Word) (payload rest : List Word),
    s.sched = .fg :: ms → s.fg = h :: (payload ++ rest) → payload.length = payloadLength h →
    legal h payload = false →
    ∃ t, step s = .next t ∧ (∀ q, t.queue q = s.queue q) ∧ KeepsStatus s t ∧ KeepsLatches s t ∧
      t.params = s.params ∧ t.fg = rest ∧ t.sched = ms ∧ t.tick = s.tick ∧
      t.out = s.out ++ [.command h payload, .response 0x40000000#32]

/-- R84, R190: decoding is total and the block raises no trap, so every step from every state answers a next state. That
the turn of an agent whose step is not enabled (log 5), or of FG with an incomplete command on the port (log 10), answers
a next state too is the model's choice. -/
def Obligations.EveryStepAnswersANextState : Prop := ∀ s : State, ∃ t, step s = .next t

/-- The turn of an agent whose step is not enabled (R194, R196, R197) passes and changes nothing but the list of
choices. That such a turn passes is the model's choice (log 5). -/
def Obligations.TurnOfADisabledAgentChangesNothing : Prop :=
  ∀ (s : State) (ms : List Move),
    (s.sched = .fg :: ms → frame s.fg = none → step s = .next (s.setSched ms)) ∧
    (∀ e d, s.sched = .dispatch e d :: ms → (s.ie = false ∨ s.pend e = false ∨ ¬ArbAllowed s e) →
      step s = .next (s.setSched ms)) ∧
    ∀ p, s.sched = .complete p :: ms → s.phyBusy p = false → step s = .next (s.setSched ms)

/-! ## Event handlers and the arbiter -/

/-- R160, R161: the six rows of the BUS_EV handler, for every draw; the latch is cleared and the UART channel, IE, the
port and the parameters are untouched. -/
def Obligations.BusEventFollowsItsTransitionTable : Prop :=
  ∀ (s : State) (d : Draws) (ms : List Move), s.Inv → Dispatches s .busEv d ms →
    ∃ t, step s = .next t ∧ t.pendBus = false ∧ KeepsUart s t ∧ KeepsPort s t ∧ t.sched = ms ∧ t.tick = s.tick ∧
      (if d.collision = true then
        t.busStatus = .collision ∧ t.brx = s.brx ∧ SendsNothing .bus s t
      else if s.busStatus = .busy then
        if s.brx.len.toNat = s.params.cBrx.val then
          t.busStatus = .bufferOverflow ∧ t.brx = s.brx ∧ SendsNothing .bus s t
        else
          t.content .brx = s.content .brx ++ [d.busRx] ∧ SendsOldest .bus s t ∧
          t.busStatus = (if s.content .btx = [] then .idle else .busy)
      else
        t.brx = s.brx ∧ SendsOldest .bus s t ∧ t.busStatus = (if s.content .btx = [] then .idle else .busy))

/-- R162, R163: the rows of the UTX_EV handler, for every draw and both values of UART_TX_ERR_STOPS. -/
def Obligations.UartTransmitEventFollowsItsTransitionTable : Prop :=
  ∀ (s : State) (d : Draws) (ms : List Move), s.Inv → Dispatches s .utxEv d ms →
    ∃ t, step s = .next t ∧ t.pendUtx = false ∧ t.pendUrx = s.pendUrx ∧ t.urx = s.urx ∧ KeepsBus s t ∧
      KeepsPort s t ∧ t.sched = ms ∧ t.tick = s.tick ∧
      (if d.frameError = true ∨ d.parityError = true then
        t.uartStatus = (if d.frameError = true then .frameError else .parityError) ∧
        (if s.params.uartTxErrStops = true then SendsNothing .uart s t else SendsOldest .uart s t)
      else SendsOldest .uart s t ∧ t.uartStatus = (if s.content .utx = [] then .txIdle else .txBusy))

/-- R164, R165: the rows of the URX_EV handler, for every draw; a successful receive leaves the status. -/
def Obligations.UartReceiveEventFollowsItsTransitionTable : Prop :=
  ∀ (s : State) (d : Draws) (ms : List Move), s.Inv → Dispatches s .urxEv d ms →
    ∃ t, step s = .next t ∧ t.pendUrx = false ∧ t.pendUtx = s.pendUtx ∧ t.utx = s.utx ∧
      t.phyBusyUtx = s.phyBusyUtx ∧ KeepsBus s t ∧ KeepsPort s t ∧ t.sched = ms ∧ t.tick = s.tick ∧ t.out = s.out ∧
      (if d.frameError = true then t.uartStatus = .frameError ∧ t.urx = s.urx
      else if d.dataOverrun = true then t.uartStatus = .dataOverrun ∧ t.urx = s.urx
      else if d.parityError = true then t.uartStatus = .parityError ∧ t.urx = s.urx
      else if s.urx.len.toNat = s.params.cUrx.val then t.uartStatus = .overflow ∧ t.urx = s.urx
      else t.uartStatus = s.uartStatus ∧ t.content .urx = s.content .urx ++ [d.uartRx])

/-- R168, R203: whatever it draws and from every state, a dispatch changes neither IE nor the parameters nor the port,
sets no pending latch, and touches the state of its own channel only; the two UART handlers share UART.status alone. -/
def Obligations.HandlersTouchTheirOwnChannelOnly : Prop :=
  ∀ (s : State) (e : EventSource) (d : Draws),
    KeepsPort s (dispatch e d s) ∧ (∀ e', e' ≠ e → (dispatch e d s).pend e' = s.pend e') ∧
    (dispatch e d s).pend e = false ∧
    match e with
    | .busEv => KeepsUart s (dispatch e d s)
    | .utxEv => KeepsBus s (dispatch e d s) ∧ (dispatch e d s).urx = s.urx
    | .urxEv =>
      KeepsBus s (dispatch e d s) ∧ (dispatch e d s).utx = s.utx ∧ (dispatch e d s).phyBusyUtx = s.phyBusyUtx

/-- R196, R201: a dispatch is enabled exactly when IE is 1, the source is pending and ARB_ORDER allows it; under a fixed
order exactly one pending source is allowed, under FREE every one. -/
def Obligations.ArbiterOrderDecidesAmongPendingSources : Prop :=
  ∀ s : State,
    (∀ e, canDispatch s e = true ↔ s.ie = true ∧ s.pend e = true ∧ ArbAllowed s e) ∧
    (s.params.arbOrder = .free → s.ie = true → ∀ e, s.pend e = true → canDispatch s e = true) ∧
    ∀ order, s.params.arbOrder = .fixed order → s.ie = true → (∃ e, s.pend e = true) →
      ∃ e, canDispatch s e = true ∧ (∀ e', canDispatch s e' = true → e' = e) ∧
        ∃ pre post, order.val = pre ++ e :: post ∧ ∀ e' ∈ pre, s.pend e' = false

/-- R32, R204: while IE is 0 no handler runs: a step that is not FG's changes no queue, no status, not IE and writes
nothing, and every set latch stays set. When IESWAP sets IE, each set latch that ARB_ORDER allows is dispatchable. -/
def Obligations.NoHandlerRunsWhileMasked : Prop :=
  (∀ s t : State, s.ie = false → step s = .next t → nextMove s ≠ .fg →
    (∀ q, t.queue q = s.queue q) ∧ KeepsStatus s t ∧ t.ie = false ∧ t.out = s.out ∧
    ∀ e, s.pend e = true → t.pend e = true) ∧
  ∀ s t : State, exec (.ieswap true) s = .next t →
    ∀ e, s.pend e = true → ArbAllowed s e → canDispatch t e = true

/-- R197: the completion of a busy transmit path clears its busy latch and sets its pending latch, whatever IE is. -/
def Obligations.CompletionRaisesTheSendEvent : Prop :=
  ∀ (s : State) (p : TxPath) (ms : List Move), s.sched = .complete p :: ms → s.phyBusy p = true →
    ∃ t, step s = .next t ∧ t.phyBusy p = false ∧ t.pend (evOf p) = true ∧
      (∀ p', p' ≠ p → t.phyBusy p' = s.phyBusy p') ∧ (∀ e, e ≠ evOf p → t.pend e = s.pend e) ∧
      (∀ q, t.queue q = s.queue q) ∧ KeepsStatus s t ∧ KeepsPort s t ∧ t.sched = ms ∧ t.tick = s.tick ∧ t.out = s.out

/-- R33, R198: a byte arrival sets PEND[URX_EV] from every state and changes nothing else; two arrivals before a dispatch
leave the state one arrival leaves. -/
def Obligations.ArrivalRaisesTheReceiveEvent : Prop :=
  ∀ (s : State) (ms : List Move), s.sched = .arrive :: ms →
    (∃ t, step s = .next t ∧ t.pendUrx = true ∧ (∀ e, e ≠ .urxEv → t.pend e = s.pend e) ∧
      (∀ p, t.phyBusy p = s.phyBusy p) ∧ (∀ q, t.queue q = s.queue q) ∧ KeepsStatus s t ∧ KeepsPort s t ∧
      t.sched = ms ∧ t.tick = s.tick ∧ t.out = s.out) ∧
    ∀ ms', ms = .arrive :: ms' → core.run 2 s = step (s.setSched (.arrive :: ms'))

/-- R166, R196: a byte reaches the peripheral only in an enabled dispatch (IE 1, the latch set, ARB_ORDER allows it) of its
channel's send event; it is the oldest byte of the send queue, which loses it, and the path is busy after it. Every step
only adds to the observation. -/
def Obligations.EveryWrittenByteIsTheOldestQueuedByte : Prop :=
  ∀ s t : State, s.Inv → step s = .next t →
    ∃ os, t.out = s.out ++ os ∧ ∀ ch b, .write ch b ∈ os →
      (∃ d, nextMove s = .dispatch (txev ch) d) ∧ s.ie = true ∧ s.pend (txev ch) = true ∧ ArbAllowed s (txev ch) ∧
      s.content (txq ch) = b :: t.content (txq ch) ∧ t.phyBusy (pathOf ch) = true

/-- R34, R166, R197: a busy latch is set only by a step that writes a byte to that path, and cleared only by that path's
completion. -/
def Obligations.BusyLatchFollowsWriteAndCompletion : Prop :=
  ∀ (s t : State) (p : TxPath), step s = .next t →
    (s.phyBusy p = false → t.phyBusy p = true → ∃ ch b, p = pathOf ch ∧ t.out = s.out ++ [.write ch b]) ∧
    (s.phyBusy p = true → t.phyBusy p = false → nextMove s = .complete p)

/-- R32, R143, R203: a step that changes IE is an FG step that runs IESWAP with the new value. -/
def Obligations.OnlyIeswapChangesTheEnable : Prop :=
  ∀ s t : State, step s = .next t → t.ie ≠ s.ie → RunsCommand s (.ieswap t.ie)

/-- R26, R63: the steps that are not FG's only take bytes from the front of the send queues and only add bytes at the back of
the receive queues, so stale LEN and IS_FULL results err on the safe side (R225). -/
def Obligations.HandlersDrainSendQueuesAndFillReceiveQueues : Prop :=
  ∀ (s t : State), s.Inv → step s = .next t → nextMove s ≠ .fg → ∀ ch,
    t.content (txq ch) <:+ s.content (txq ch) ∧ s.content (rxq ch) <+: t.content (rxq ch)

/-! ## Stalls, hazards, and the end of a run -/

/-- R228, R229: a stalled BUS channel stays stalled, writes nothing and takes in nothing until INIT(BUS) runs; a
`Collision` status stays until then unless a TRANSMIT finds BTX full, which R140 makes `BufferOverflow` (log 11). -/
def Obligations.StalledBusStaysStalledUntilInit : Prop :=
  ∀ s t : State, BusStalled s → step s = .next t →
    RunsCommand s (.init .bus) ∨
    BusStalled t ∧ (∃ os, t.out = s.out ++ os ∧ ∀ b, .write .bus b ∉ os) ∧
      (t.busStatus = s.busStatus ∨
        t.busStatus = .bufferOverflow ∧ s.btx.len.toNat = s.params.cBtx.val ∧ ∃ b, RunsCommand s (.transmit .bus b))

/-- R230: a stalled UART transmit path stays stalled and writes nothing until INIT(UART) runs, whatever the receive path
does meanwhile. -/
def Obligations.StalledUartTransmitStaysStalledUntilInit : Prop :=
  ∀ s t : State, UartTxStalled s → step s = .next t →
    RunsCommand s (.init .uart) ∨
    UartTxStalled t ∧ ∃ os, t.out = s.out ++ os ∧ ∀ b, .write .uart b ∉ os

/-- R160, R197: an armed BUS channel with one queued byte sends it, completes and returns to `Idle` with the byte received
meanwhile at the back of BRX, in the three steps dispatch, completion, dispatch without a collision. -/
def Obligations.BusTransferCycleReturnsToIdle : Prop :=
  ∀ (s : State) (d₁ d₂ : Draws) (b : Byte) (ms : List Move), s.Inv →
    s.sched = .dispatch .busEv d₁ :: .complete .bus :: .dispatch .busEv d₂ :: ms →
    s.ie = true → s.pendBus = true → ArbAllowed s .busEv → s.busStatus = .idle → s.content .btx = [b] →
    s.brx.len.toNat ≠ s.params.cBrx.val → d₁.collision = false → d₂.collision = false →
    ∃ t, core.run 3 s = .next t ∧ t.busStatus = .idle ∧ t.content .btx = [] ∧
      t.content .brx = s.content .brx ++ [d₂.busRx] ∧ t.out = s.out ++ [.write .bus b] ∧
      t.pendBus = false ∧ t.phyBusyBus = false ∧ KeepsUart s t ∧ t.ie = true

/-- R231, R232: a TRANSMIT that finds BTX full while a byte is on the wire makes the byte received with that transfer be
lost: its completion event queues nothing in BRX, sends the oldest byte and overwrites `BufferOverflow` with `Busy`. -/
def Obligations.FullTransmitLosesTheBusReceiveByte : Prop :=
  ∀ (s : State) (d : Draws) (x b : Byte) (queued : List Byte) (rest : List Word) (ms : List Move), s.Inv →
    s.sched = .fg :: .complete .bus :: .dispatch .busEv d :: ms → s.fg = encode (.transmit .bus x) ++ rest →
    s.ie = true → ArbAllowed s .busEv → s.busStatus = .busy → s.phyBusyBus = true →
    s.content .btx = b :: queued → (b :: queued).length = s.params.cBtx.val → d.collision = false →
    ∃ t, core.run 3 s = .next t ∧ t.brx = s.brx ∧ t.busStatus = .busy ∧ t.content .btx = queued ∧
      t.phyBusyBus = true ∧
      ∃ h, encode (.transmit .bus x) = [h] ∧ t.out = s.out ++ [.command h [], .response 0#32, .write .bus b]

/-- R234: INIT(BUS) with a byte on the wire: the completion still comes, its event runs against the empty channel, keeps it
`Idle`, queues no received byte and writes nothing. -/
def Obligations.InitWithAByteOnTheWireDropsItsEvent : Prop :=
  ∀ (s : State) (d : Draws) (rest : List Word) (ms : List Move), s.Inv →
    s.sched = .fg :: .complete .bus :: .dispatch .busEv d :: ms → s.fg = encode (.init .bus) ++ rest →
    s.ie = true → ArbAllowed s .busEv → s.phyBusyBus = true → d.collision = false →
    ∃ t, core.run 3 s = .next t ∧ t.busStatus = .idle ∧ t.content .btx = [] ∧ t.content .brx = [] ∧
      t.pendBus = false ∧ t.phyBusyBus = false ∧
      ∃ h, encode (.init .bus) = [h] ∧ t.out = s.out ++ [.command h [], .response 0#32]

/-- R212: once the run has ended, nothing but a byte arrival changes the block, and the run stays ended. No step but an
arrival is enabled then; that the turn of an agent whose step is not enabled passes and changes nothing is the model's
choice (log 5). -/
def Obligations.EndedRunOnlyWaitsForArrivals : Prop :=
  ∀ s t : State, RunEnded s → step s = .next t → nextMove s ≠ .arrive →
    SameBlock s t ∧ t.fg = s.fg ∧ t.params = s.params ∧ RunEnded t

/-- R35, R36, R40: `front` and the cells outside the content are unobservable: two states that differ only in them take
every step alike, with the same observation, and still differ only in them after it. -/
def Obligations.FrontAndOutsideCellsAreUnobservable : Prop :=
  ∀ s s' t : State, s.Inv → s'.Inv → ObsEq s s' → step s = .next t →
    ∃ t', step s' = .next t' ∧ ObsEq t t'

/-! ## Runs -/

/-- R200 (b), R197: in a run that is weakly fair to completions, a busy transmit path is completed at some later step
at which it is still busy. FG's command sequence is finite in every run of the model (log 17). -/
def Obligations.BusyPathIsEventuallyCompleted : Prop :=
  ∀ r : Nat → State, IsRun r → FairCompletion r → ∀ p n, (r n).phyBusy p = true →
    ∃ m, n ≤ m ∧ (r m).phyBusy p = true ∧ nextMove (r m) = .complete p ∧ (r (m + 1)).phyBusy p = false ∧
      (r (m + 1)).pend (evOf p) = true

/-- R200 (a), R195, R196: in a run that is weakly fair to dispatches under ARB_ORDER = FREE, a pending source is
eventually dispatched, unless INIT of its channel clears it or IE is 0 first; it is still pending until then. FG's command
sequence is finite in every run of the model (log 17). -/
def Obligations.PendingSourceIsEventuallyServed : Prop :=
  ∀ r : Nat → State, IsRun r → FairDispatch r → (r 0).params.arbOrder = .free →
    ∀ e n, (r n).pend e = true →
      ∃ m, n ≤ m ∧ (r m).pend e = true ∧
        ((r m).ie = false ∨ (canDispatch (r m) e = true ∧ ∃ d, nextMove (r m) = .dispatch e d) ∨
          RunsCommand (r m) (.init (if e = .busEv then .bus else .uart)))
end

