-- ==== Sys2Proof/Laws/Decode.lean ====
section
/-! SUPPORT. The fields of an encoded header and payload word, and the framing of a stream (R71 to R73, R80). -/

namespace Sys2Proof

section Fields
variable (opc : BitVec 4) (ch dir : Bool) (imm : Half)

/-- Every bit of a header, by the layout of R71. -/
theorem getLsbD_mkHeader (i : Nat) :
    (mkHeader opc ch dir imm).getLsbD i =
      if i < 16 then imm.getLsbD i else if i < 26 then false else if i = 26 then dir
      else if i = 27 then ch else opc.getLsbD (i - 28) := by
  simp only [mkHeader, BitVec.getLsbD_append]
  by_cases h16 : i < 16
  · simp [h16]
  by_cases h26 : i < 26
  · simp [h16, h26, show i - 16 < 10 by omega]
  by_cases h27 : i = 26
  · subst h27; simp
  by_cases h28 : i = 27
  · subst h28; simp
  · simp [h16, h26, h27, h28, show ¬i - 16 < 10 by omega, show ¬i - 16 - 10 < 1 by omega,
      show ¬i - 16 - 10 - 1 < 1 by omega, show i - 16 - 10 - 1 - 1 = i - 28 by omega]

theorem getLsbD_immByte (b : Byte) (i : Nat) : (immByte b).getLsbD i = if i < 8 then b.getLsbD i else false := by
  simp only [immByte, BitVec.getLsbD_append]
  by_cases h : i < 8 <;> simp [h]

theorem getLsbD_payloadWord (b : Byte) (i : Nat) :
    (payloadWord b).getLsbD i = if i < 8 then b.getLsbD i else false := by
  simp only [payloadWord, BitVec.getLsbD_append]
  by_cases h : i < 8 <;> simp [h]

@[simp] theorem hdrOpc_mkHeader : hdrOpc (mkHeader opc ch dir imm) = opc := by
  apply BitVec.eq_of_getLsbD_eq
  intro i hi
  rw [hdrOpc, BitVec.getLsbD_extractLsb', getLsbD_mkHeader]
  simp [hi, show ¬28 + i < 16 by omega, show ¬28 + i < 26 by omega, show ¬28 + i = 26 by omega, show ¬28 + i = 27 by omega]

@[simp] theorem hdrRsv_mkHeader : hdrRsv (mkHeader opc ch dir imm) = 0#10 := by
  apply BitVec.eq_of_getLsbD_eq
  intro i hi
  rw [hdrRsv, BitVec.getLsbD_extractLsb', getLsbD_mkHeader]
  simp [show 16 + i < 26 by omega]

@[simp] theorem hdrImm_mkHeader : hdrImm (mkHeader opc ch dir imm) = imm := by
  apply BitVec.eq_of_getLsbD_eq
  intro i hi
  rw [hdrImm, BitVec.getLsbD_extractLsb', getLsbD_mkHeader]
  simp [hi]

@[simp] theorem hdrCh_mkHeader : hdrCh (mkHeader opc ch dir imm) = ch := by
  rw [hdrCh, getLsbD_mkHeader]
  simp

@[simp] theorem hdrDir_mkHeader : hdrDir (mkHeader opc ch dir imm) = dir := by
  rw [hdrDir, getLsbD_mkHeader]
  simp

@[simp] theorem hdrByte_mkHeader (b : Byte) : hdrByte (mkHeader opc ch dir (immByte b)) = b := by
  apply BitVec.eq_of_getLsbD_eq
  intro i hi
  rw [hdrByte, BitVec.getLsbD_extractLsb', getLsbD_mkHeader, getLsbD_immByte]
  simp [hi, show i < 16 by omega]

@[simp] theorem hdrImmHigh_mkHeader (b : Byte) : hdrImmHigh (mkHeader opc ch dir (immByte b)) = 0#8 := by
  apply BitVec.eq_of_getLsbD_eq
  intro i hi
  rw [hdrImmHigh, BitVec.getLsbD_extractLsb', getLsbD_mkHeader, getLsbD_immByte]
  simp [show 8 + i < 16 by omega]

@[simp] theorem hdrImmAboveBit0_mkHeader (v : Bool) :
    hdrImmAboveBit0 (mkHeader opc ch dir (0#15 ++ BitVec.ofBool v)) = 0#15 := by
  apply BitVec.eq_of_getLsbD_eq
  intro i hi
  rw [hdrImmAboveBit0, BitVec.getLsbD_extractLsb', getLsbD_mkHeader, BitVec.getLsbD_append]
  simp [show 1 + i < 16 by omega]

@[simp] theorem hdrEnable_mkHeader (v : Bool) :
    hdrEnable (mkHeader opc ch dir (0#15 ++ BitVec.ofBool v)) = v := by
  rw [hdrEnable, getLsbD_mkHeader, if_pos (by omega), BitVec.getLsbD_append]
  simp

end Fields

@[simp] theorem payloadByte_payloadWord (b : Byte) : payloadByte (payloadWord b) = b := by
  apply BitVec.eq_of_getLsbD_eq
  intro i hi
  simp [payloadByte, getLsbD_payloadWord, hi]

@[simp] theorem payloadHigh_payloadWord (b : Byte) : payloadHigh (payloadWord b) = 0#24 := by
  apply BitVec.eq_of_getLsbD_eq
  intro i hi
  simp [payloadHigh, BitVec.getLsbD_extractLsb', getLsbD_payloadWord]

/-- A bit of a zero slice is 0. -/
theorem getLsbD_of_slice_zero {n start k : Nat} {w : BitVec n} (h : w.extractLsb' start k = 0#k) {i : Nat}
    (h1 : start ≤ i) (h2 : i < start + k) : w.getLsbD i = false := by
  have := congrArg (·.getLsbD (i - start)) h
  simp only [BitVec.getLsbD_extractLsb', BitVec.getLsbD_zero, show start + (i - start) = i by omega] at this
  simpa [show i - start < k by omega] using this

/-- A payload word with zeros above its byte is the word of that byte. -/
theorem payloadWord_payloadByte (w : Word) (h : payloadHigh w = 0#24) : payloadWord (payloadByte w) = w := by
  apply BitVec.eq_of_getLsbD_eq
  intro i hi
  rw [getLsbD_payloadWord]
  by_cases h8 : i < 8
  · simp [h8, payloadByte]
  · simp [h8, getLsbD_of_slice_zero h (show 8 ≤ i by omega) (by omega)]

/-- IMM with zeros above its byte is that byte. -/
theorem immByte_hdrByte (h : Word) (hz : hdrImmHigh h = 0#8) : immByte (hdrByte h) = hdrImm h := by
  apply BitVec.eq_of_getLsbD_eq
  intro i hi
  rw [getLsbD_immByte]
  by_cases h8 : i < 8
  · simp [h8, hi, hdrByte, hdrImm]
  · simp [h8, hi, hdrImm, getLsbD_of_slice_zero hz (show 8 ≤ i by omega) (by omega)]

/-- IMM with zeros above bit 0 is that bit. -/
theorem enable_hdrImm (h : Word) (hz : hdrImmAboveBit0 h = 0#15) :
    (0#15 ++ BitVec.ofBool (hdrEnable h) : Half) = hdrImm h := by
  apply BitVec.eq_of_getLsbD_eq
  intro i hi
  rw [BitVec.getLsbD_append]
  cases i with
  | zero => simp [hdrImm, hdrEnable]
  | succ i =>
    simp [hi, hdrImm, getLsbD_of_slice_zero hz (show 1 ≤ i + 1 by omega) (by omega)]

@[simp] theorem queueOf_ch_dir (q : QueueId) : queueOf q.ch q.dir = q := by cases q <;> rfl

@[simp] theorem channelOf_ch (ch : Channel) : channelOf ch.ch = ch := by cases ch <;> rfl

@[simp] theorem ch_queueOf (a b : Bool) : (queueOf a b).ch = a := by cases a <;> cases b <;> rfl

@[simp] theorem dir_queueOf (a b : Bool) : (queueOf a b).dir = b := by cases a <;> cases b <;> rfl

@[simp] theorem ch_channelOf (a : Bool) : (channelOf a).ch = a := by cases a <;> rfl

/-- A header with RSV = 0 is rebuilt from its other fields (R71). -/
theorem mkHeader_fields (h : Word) (hr : hdrRsv h = 0#10) :
    mkHeader (hdrOpc h) (hdrCh h) (hdrDir h) (hdrImm h) = h := by
  apply BitVec.eq_of_getLsbD_eq
  intro i hi
  rw [getLsbD_mkHeader]
  by_cases h16 : i < 16
  · simp [h16, hdrImm]
  by_cases h26 : i < 26
  · simp [h16, h26, getLsbD_of_slice_zero hr (show 16 ≤ i by omega) (by omega)]
  by_cases h27 : i = 26
  · simp [h27, hdrDir]
  by_cases h28 : i = 27
  · simp [h28, hdrCh]
  · simp [h16, h26, h27, h28, hdrOpc, show i - 28 < 4 by omega,
      show 28 + (i - 28) = i by omega]

/-! ## Legality -/

/-- A command is legal when every test of R76 passes. -/
theorem illegalReason_eq_none_iff (h : Word) (payload : List Word) :
    illegalReason h payload = none ↔
      ¬(hdrOpc h = 0x0#4 ∨ hdrOpc h = 0xE#4 ∨ hdrOpc h = 0xF#4) ∧ hdrRsv h = 0#10 ∧
      ((hdrOpc h = 0x1#4 ∨ hdrOpc h = 0xA#4) → hdrImmHigh h = 0#8) ∧
      ((0x3#4 ≤ hdrOpc h ∧ hdrOpc h ≤ 0x9#4 ∨ hdrOpc h = 0xB#4 ∨ hdrOpc h = 0xC#4) → hdrImm h = 0#16) ∧
      ((hdrOpc h = 0xA#4 ∨ hdrOpc h = 0xB#4 ∨ hdrOpc h = 0xC#4) → hdrDir h = false) ∧
      (hdrOpc h = 0xD#4 → hdrCh h = false ∧ hdrDir h = false ∧ hdrImmAboveBit0 h = 0#15) ∧
      (hdrOpc h = 0x2#4 → ∀ w ∈ payload, payloadHigh w = 0#24) := by
  simp only [illegalReason]
  split_ifs <;> simp_all
  rename_i h
  intro hc hd
  simp [hc, hd] at h

theorem legal_iff (h : Word) (payload : List Word) : legal h payload = true ↔ illegalReason h payload = none := by
  simp [legal]

/-- An opcode is one of the sixteen values. -/
theorem opcode_cases (o : BitVec 4) :
    o = 0x0#4 ∨ o = 0x1#4 ∨ o = 0x2#4 ∨ o = 0x3#4 ∨ o = 0x4#4 ∨ o = 0x5#4 ∨ o = 0x6#4 ∨ o = 0x7#4 ∨
      o = 0x8#4 ∨ o = 0x9#4 ∨ o = 0xA#4 ∨ o = 0xB#4 ∨ o = 0xC#4 ∨ o = 0xD#4 ∨ o = 0xE#4 ∨ o = 0xF#4 := by
  revert o; decide

/-- A legal command decodes to the command its opcode selects. -/
theorem decode_of_legal (h : Word) (payload : List Word) (hl : illegalReason h payload = none) :
    ∃ i, selectCommand h payload = some i ∧ decode h payload = .command i := by
  have h1 := ((illegalReason_eq_none_iff h payload).mp hl).1
  have : ∃ i, selectCommand h payload = some i := by
    simp only [selectCommand]
    rcases opcode_cases (hdrOpc h) with e | e | e | e | e | e | e | e | e | e | e | e | e | e | e | e <;>
      simp_all
  obtain ⟨i, hi⟩ := this
  exact ⟨i, hi, by simp [decode, hl, hi]⟩

theorem decode_of_illegal (h : Word) (payload : List Word) (why : Illegal) (hl : illegalReason h payload = some why) :
    decode h payload = .illegal why := by simp [decode, hl]

/-! ## Framing -/

/-- A header followed by at least its payload is framed, and only such a stream is. -/
theorem frame_eq_some_iff (ws : List Word) (h : Word) (payload rest : List Word) :
    frame ws = some (h, payload, rest) ↔ ws = h :: (payload ++ rest) ∧ payload.length = payloadLength h := by
  cases ws with
  | nil => simp [frame]
  | cons a ws =>
    simp only [frame]
    constructor
    · intro e
      split at e
      · rename_i hl
        simp only [Option.some.injEq, Prod.mk.injEq] at e
        obtain ⟨rfl, rfl, rfl⟩ := e
        exact ⟨by simp, by simp [hl]⟩
      · cases e
    · rintro ⟨e, hl⟩
      obtain ⟨rfl, rfl⟩ := List.cons.inj e
      simp [← hl]

theorem frame_cons_append (h : Word) (payload rest : List Word) (hl : payload.length = payloadLength h) :
    frame (h :: (payload ++ rest)) = some (h, payload, rest) := (frame_eq_some_iff _ _ _ _).mpr ⟨rfl, hl⟩

end Sys2Proof
end

