-- ==== Sys2Proof/Laws/Queue.lean ====
section
/-! SUPPORT. What the queue primitives do, once each: the invariant they keep and the content they leave (R24, R100 to R106). -/

namespace Sys2Proof.Machine

variable {c : Capacity} {q : Queue}

theorem Capacity_pos (c : Capacity) : 0 < c.val := c.property.1

theorem Capacity_le (c : Capacity) : c.val ≤ 65535 := c.property.2

@[simp] theorem content_length : (q.content c).length = q.len.toNat := by simp [Queue.content]

theorem len_eq_zero_iff : q.len = 0#16 ↔ q.len.toNat = 0 := by
  constructor
  · intro h; simp [h]
  · intro h; exact BitVec.eq_of_toNat_eq (by simpa using h)

theorem content_eq_nil_iff : q.content c = [] ↔ q.len = 0#16 := by
  rw [← List.length_eq_zero_iff, content_length, len_eq_zero_iff]

theorem content_getElem (i : Nat) (h : i < (q.content c).length) :
    (q.content c)[i] = q.cell (q.index c i) := by simp [Queue.content]

theorem index_lt (c : Capacity) (q : Queue) (i : Nat) : q.index c i < c.val := Nat.mod_lt _ (Capacity_pos c)

/-- A cell after one cell is written. -/
theorem cell_set (buf : List Byte) (front len : Half) (i j : Nat) (b : Byte) (hi : i < buf.length) :
    (Queue.mk (buf.set i b) front len).cell j = if j = i then b else buf.getD j 0#8 := by
  simp only [Queue.cell, List.getD_eq_getElem?_getD, List.getElem?_set]
  by_cases h : i = j
  · subst h; simp [hi]
  · simp [h, Ne.symm h]

/-- Distinct offsets below the capacity lie in distinct cells. -/
theorem index_inj {i j : Nat} (hi : i < c.val) (hj : j < c.val) (h : q.index c i = q.index c j) : i = j := by
  have h' : (q.front.toNat + i) ≡ (q.front.toNat + j) [MOD c.val] := h
  have := Nat.ModEq.add_left_cancel' _ h'
  rwa [Nat.ModEq, Nat.mod_eq_of_lt hi, Nat.mod_eq_of_lt hj] at this

/-! ## `q_push` -/

theorem qPush_of_full (b : Byte) (h : q.len.toNat = c.val) : qPush c q b = (.full, q) := by simp [qPush, h]

theorem qPush_of_room (b : Byte) (h : q.len.toNat ≠ c.val) :
    qPush c q b =
      (.ok, { q with buf := q.buf.set (q.index c q.len.toNat) b, len := BitVec.ofNat 16 (q.len.toNat + 1) }) := by
  simp [qPush, h]

theorem qPush_rc_full_iff (b : Byte) : (qPush c q b).1 = .full ↔ q.len.toNat = c.val := by
  by_cases h : q.len.toNat = c.val <;> simp [qPush, h]

theorem qPush_rc_ok_iff (b : Byte) : (qPush c q b).1 = .ok ↔ q.len.toNat ≠ c.val := by
  by_cases h : q.len.toNat = c.val <;> simp [qPush, h]

theorem qPush_len (hw : q.Wf c) (b : Byte) (h : q.len.toNat ≠ c.val) :
    (qPush c q b).2.len.toNat = q.len.toNat + 1 := by
  have := Capacity_le c
  have := hw.2.2
  rw [qPush_of_room b h]
  simp only [BitVec.toNat_ofNat]
  omega

theorem qPush_wf (hw : q.Wf c) (b : Byte) : (qPush c q b).2.Wf c := by
  by_cases h : q.len.toNat = c.val
  · rw [qPush_of_full b h]; exact hw
  · have hl := qPush_len hw b h
    have h3 := hw.2.2
    rw [qPush_of_room b h] at hl ⊢
    exact ⟨by simpa using hw.1, hw.2.1, by omega⟩

/-- A push into a queue with room puts the byte at the back of the content. -/
theorem qPush_content (hw : q.Wf c) (b : Byte) (h : q.len.toNat ≠ c.val) :
    (qPush c q b).2.content c = q.content c ++ [b] := by
  have hl := qPush_len hw b h
  have hlt : q.len.toNat < c.val := by have := hw.2.2; omega
  have hb : q.index c q.len.toNat < q.buf.length := by rw [hw.1]; exact index_lt c q _
  rw [Queue.content, hl, List.range_succ, List.map_append]
  rw [qPush_of_room b h]
  congr 1
  · apply List.map_congr_left
    intro i hi
    have hi' : i < q.len.toNat := List.mem_range.mp hi
    have hne : q.index c i ≠ q.index c q.len.toNat := fun e => by
      have := index_inj (by omega) hlt e; omega
    simp only [Queue.index] at hb hne ⊢
    rw [cell_set _ _ _ _ _ _ hb, if_neg hne]
    rfl
  · simp only [Queue.index] at hb ⊢
    simp [cell_set _ _ _ _ _ _ hb]

/-! ## `q_push_many` -/

theorem qPushMany_of_tooMany (bs : List Byte) (h : c.val < bs.length) : qPushMany c q bs = (.tooMany, q) := by
  simp [qPushMany, h]

theorem qPushMany_of_full (bs : List Byte) (h : bs.length ≤ c.val) (h' : c.val < q.len.toNat + bs.length) :
    qPushMany c q bs = (.full, q) := by
  simp [qPushMany, Nat.not_lt.mpr h, h']

theorem qPushMany_of_room (bs : List Byte) (h : q.len.toNat + bs.length ≤ c.val) :
    qPushMany c q bs =
      (.ok, { q with buf := writeCells c q.buf (q.front.toNat + q.len.toNat) bs,
                     len := BitVec.ofNat 16 (q.len.toNat + bs.length) }) := by
  simp [qPushMany, Nat.not_lt.mpr h, Nat.not_lt.mpr (show bs.length ≤ c.val by omega)]

theorem qPushMany_rc_ok_iff (bs : List Byte) : (qPushMany c q bs).1 = .ok ↔ q.len.toNat + bs.length ≤ c.val := by
  simp only [qPushMany]
  split
  · simp; omega
  · split
    · simp; omega
    · simp; omega

/-- Writing the cells one after the other is pushing the bytes one after the other. -/
theorem writeCells_eq_pushes (bs : List Byte) (q : Queue) (hw : q.Wf c) (h : q.len.toNat + bs.length ≤ c.val) :
    ({ q with buf := writeCells c q.buf (q.front.toNat + q.len.toNat) bs,
              len := BitVec.ofNat 16 (q.len.toNat + bs.length) } : Queue) =
      bs.foldl (fun r b => (qPush c r b).2) q := by
  induction bs generalizing q with
  | nil => simp [writeCells]
  | cons b bs ih =>
    have hroom : q.len.toNat ≠ c.val := by simp at h; omega
    have hl := qPush_len hw b hroom
    have := ih (qPush c q b).2 (qPush_wf hw b) (by rw [hl]; simp at h; omega)
    rw [List.foldl_cons, ← this, hl]
    rw [qPush_of_room b hroom]
    simp [writeCells, Queue.index, Nat.add_assoc, Nat.add_comm 1]

/-- The pushes of a list that fits: the content grows by the list. -/
theorem pushes_content (bs : List Byte) (q : Queue) (hw : q.Wf c) (h : q.len.toNat + bs.length ≤ c.val) :
    (bs.foldl (fun r b => (qPush c r b).2) q).content c = q.content c ++ bs ∧
      (bs.foldl (fun r b => (qPush c r b).2) q).Wf c := by
  induction bs generalizing q with
  | nil => exact ⟨by simp, hw⟩
  | cons b bs ih =>
    have hroom : q.len.toNat ≠ c.val := by simp at h; omega
    have hl := qPush_len hw b hroom
    obtain ⟨hc, hw'⟩ := ih (qPush c q b).2 (qPush_wf hw b) (by rw [hl]; simp at h; omega)
    exact ⟨by simp [hc, qPush_content hw b hroom], hw'⟩

/-- The cells after the writes of `q_push_many` (R101): byte i is in the cell `(n + i) mod C`, the others are as before. -/
theorem writeCells_spec (c : Capacity) : ∀ (bs : List Byte) (buf : List Byte) (n : Nat),
    buf.length = c.val → bs.length ≤ c.val →
    (∀ i, i < bs.length → (writeCells c buf n bs)[(n + i) % c.val]? = bs[i]?) ∧
    (∀ j, (∀ i, i < bs.length → j ≠ (n + i) % c.val) → (writeCells c buf n bs)[j]? = buf[j]?)
  | [], buf, n, _, _ => by simp [writeCells]
  | b :: bs, buf, n, hl, hn => by
    simp only [List.length_cons] at hn
    obtain ⟨h1, h2⟩ := writeCells_spec c bs (buf.set (n % c.val) b) (n + 1) (by simpa using hl) (by omega)
    have hp := Capacity_pos c
    constructor
    · intro i hi
      cases i with
      | zero =>
        simp only [writeCells, Nat.add_zero]
        rw [h2]
        · simp [hl, Nat.mod_lt _ hp]
        · intro i hi' e
          have h3 : (n + 0) ≡ (n + (1 + i)) [MOD c.val] := by
            unfold Nat.ModEq
            rw [Nat.add_zero, e, Nat.add_assoc]
          have h4 := Nat.ModEq.add_left_cancel' _ h3
          rw [Nat.ModEq, Nat.mod_eq_of_lt hp, Nat.mod_eq_of_lt (by omega)] at h4
          omega
      | succ i =>
        simp only [writeCells]
        rw [show n + (i + 1) = n + 1 + i by omega, h1 i (by simpa using hi)]
        simp
    · intro j hj
      simp only [writeCells]
      rw [h2 j (fun i hi => by
        have := hj (i + 1) (by simpa using hi)
        rwa [show n + 1 + i = n + (i + 1) by omega])]
      have := hj 0 (by simp)
      rw [List.getElem?_set_ne (by simpa using this.symm)]

theorem qPushMany_wf (hw : q.Wf c) (bs : List Byte) : (qPushMany c q bs).2.Wf c := by
  by_cases h1 : c.val < bs.length
  · rw [qPushMany_of_tooMany bs h1]; exact hw
  · by_cases h2 : c.val < q.len.toNat + bs.length
    · rw [qPushMany_of_full bs (by omega) h2]; exact hw
    · rw [qPushMany_of_room bs (by omega), writeCells_eq_pushes bs q hw (by omega)]
      exact (pushes_content bs q hw (by omega)).2

theorem qPushMany_content (hw : q.Wf c) (bs : List Byte) (h : q.len.toNat + bs.length ≤ c.val) :
    (qPushMany c q bs).2.content c = q.content c ++ bs := by
  rw [qPushMany_of_room bs h, writeCells_eq_pushes bs q hw h]
  exact (pushes_content bs q hw h).1

/-! ## `q_pop` and `q_pop_all` -/

theorem qPop_of_empty (h : q.len = 0#16) : qPop c q = (.empty, 0#8, q) := by simp [qPop, h]

theorem qPop_of_some (h : q.len ≠ 0#16) :
    qPop c q = (.ok, q.cell q.front.toNat,
      { q with front := BitVec.ofNat 16 ((q.front.toNat + 1) % c.val), len := BitVec.ofNat 16 (q.len.toNat - 1) }) := by
  simp [qPop, h]

theorem qPop_rc_ok_iff : (qPop c q).1 = .ok ↔ q.len ≠ 0#16 := by
  by_cases h : q.len = 0#16 <;> simp [qPop, h]

theorem qPop_front (h : q.len ≠ 0#16) : (qPop c q).2.2.front.toNat = (q.front.toNat + 1) % c.val := by
  have := Nat.mod_lt (q.front.toNat + 1) (Capacity_pos c)
  have := Capacity_le c
  rw [qPop_of_some h]
  simp only [BitVec.toNat_ofNat]
  omega

theorem qPop_len (h : q.len ≠ 0#16) : (qPop c q).2.2.len.toNat = q.len.toNat - 1 := by
  rw [qPop_of_some h]
  have := q.len.isLt
  simp only [BitVec.toNat_ofNat]
  omega

theorem qPop_wf (hw : q.Wf c) : (qPop c q).2.2.Wf c := by
  by_cases h : q.len = 0#16
  · rw [qPop_of_empty h]; exact hw
  · have hf := qPop_front (c := c) h
    have hl := qPop_len (c := c) h
    have := Nat.mod_lt (q.front.toNat + 1) (Capacity_pos c)
    refine ⟨?_, by omega, by have := hw.2.2; omega⟩
    rw [qPop_of_some h]
    exact hw.1

/-- A pop takes the first byte of the content. -/
theorem qPop_content (hw : q.Wf c) (h : q.len ≠ 0#16) :
    q.content c = (qPop c q).2.1 :: (qPop c q).2.2.content c := by
  have hf := qPop_front (c := c) h
  have hl := qPop_len (c := c) h
  have h0 : q.len.toNat ≠ 0 := fun e => h (len_eq_zero_iff.mpr e)
  apply List.ext_getElem
  · simp [hl]; omega
  · intro i h1 h2
    rw [content_getElem]
    cases i with
    | zero =>
      rw [List.getElem_cons_zero, qPop_of_some h]
      simp [Queue.index, Nat.mod_eq_of_lt hw.2.1]
    | succ i =>
      rw [List.getElem_cons_succ, content_getElem]
      simp only [Queue.index, hf]
      rw [qPop_of_some h]
      simp only [Queue.cell]
      congr 1
      rw [Nat.mod_add_mod]
      congr 1
      omega

theorem qPopAll_wf (hw : q.Wf c) : (qPopAll q).Wf c := ⟨hw.1, by simpa [qPopAll] using Capacity_pos c, by simp [qPopAll]⟩

@[simp] theorem qPopAll_content : (qPopAll q).content c = [] := by simp [Queue.content, qPopAll]

/-! ## The peeks -/

theorem qFront_of_empty (h : q.len = 0#16) : qFront q = (.empty, 0#8) := by simp [qFront, h]

theorem qBack_of_empty (h : q.len = 0#16) : qBack c q = (.empty, 0#8) := by simp [qBack, h]

/-- The front peek reads the first byte of the content. -/
theorem qFront_content (hw : q.Wf c) (h : q.len ≠ 0#16) :
    (qFront q).1 = .ok ∧ (q.content c).head? = some (qFront q).2 := by
  have h1 := qPop_content hw h
  refine ⟨by simp [qFront, h], ?_⟩
  rw [h1, List.head?_cons, qPop_of_some h]
  simp [qFront, h]

/-- The back peek reads the last byte of the content. -/
theorem qBack_content (h : q.len ≠ 0#16) :
    (qBack c q).1 = .ok ∧ (q.content c).getLast? = some (qBack c q).2 := by
  have h0 : q.len.toNat ≠ 0 := fun e => h (len_eq_zero_iff.mpr e)
  refine ⟨by simp [qBack, h], ?_⟩
  rw [List.getLast?_eq_getElem?, List.getElem?_eq_getElem (by simp; omega), content_getElem]
  simp only [qBack, h, if_false, Queue.index, content_length]
  congr 3
  omega

/-! ## Flags -/

theorem isEmpty_iff : q.isEmpty = true ↔ q.content c = [] := by
  rw [content_eq_nil_iff]; simp [Queue.isEmpty]

theorem isFull_iff : q.isFull c = true ↔ (q.content c).length = c.val := by
  simp [Queue.isFull]

end Sys2Proof.Machine
end

