-- ==== Sys2Proof/Laws/State.lean ====
section
/-! SUPPORT. What each update of State does to each field and accessor, so that no later proof unfolds an update. -/

namespace Sys2Proof.Machine

variable (s : State)

@[simp] theorem queue_btx : s.queue .btx = s.btx := rfl
@[simp] theorem queue_brx : s.queue .brx = s.brx := rfl
@[simp] theorem queue_utx : s.queue .utx = s.utx := rfl
@[simp] theorem queue_urx : s.queue .urx = s.urx := rfl
@[simp] theorem pend_busEv : s.pend .busEv = s.pendBus := rfl
@[simp] theorem pend_utxEv : s.pend .utxEv = s.pendUtx := rfl
@[simp] theorem pend_urxEv : s.pend .urxEv = s.pendUrx := rfl
@[simp] theorem phyBusy_bus : s.phyBusy .bus = s.phyBusyBus := rfl
@[simp] theorem phyBusy_utx : s.phyBusy .utx = s.phyBusyUtx := rfl
@[simp] theorem cap_btx : s.cap .btx = s.params.cBtx := rfl
@[simp] theorem cap_brx : s.cap .brx = s.params.cBrx := rfl
@[simp] theorem cap_utx : s.cap .utx = s.params.cUtx := rfl
@[simp] theorem cap_urx : s.cap .urx = s.params.cUrx := rfl
@[simp] theorem setIdle_bus : s.setIdle .bus = s.setBusStatus .idle := rfl
@[simp] theorem setIdle_uart : s.setIdle .uart = s.setUartStatus .txIdle := rfl
@[simp] theorem setOverflow_bus : s.setOverflow .bus = s.setBusStatus .bufferOverflow := rfl
@[simp] theorem setOverflow_uart : s.setOverflow .uart = s.setUartStatus .overflow := rfl
@[simp] theorem respond_eq (rc : RC) (v : Half) : s.respond rc v = s.emit (.response (responseWord rc v)) := rfl
@[simp] theorem arm_eq (e : EventSource) : s.arm e = s.setPend e true := rfl
@[simp] theorem phyWrite_eq (ch : Channel) (b : Byte) :
    s.phyWrite ch b = (s.emit (.write ch b)).setPhyBusy (pathOf ch) true := rfl

/-! ## `setQueue` -/

@[simp] theorem setQueue_busStatus (id : QueueId) (q : Queue) : (s.setQueue id q).busStatus = s.busStatus := by cases id <;> rfl
@[simp] theorem setQueue_uartStatus (id : QueueId) (q : Queue) : (s.setQueue id q).uartStatus = s.uartStatus := by cases id <;> rfl
@[simp] theorem setQueue_ie (id : QueueId) (q : Queue) : (s.setQueue id q).ie = s.ie := by cases id <;> rfl
@[simp] theorem setQueue_pendBus (id : QueueId) (q : Queue) : (s.setQueue id q).pendBus = s.pendBus := by cases id <;> rfl
@[simp] theorem setQueue_pendUtx (id : QueueId) (q : Queue) : (s.setQueue id q).pendUtx = s.pendUtx := by cases id <;> rfl
@[simp] theorem setQueue_pendUrx (id : QueueId) (q : Queue) : (s.setQueue id q).pendUrx = s.pendUrx := by cases id <;> rfl
@[simp] theorem setQueue_phyBusyBus (id : QueueId) (q : Queue) : (s.setQueue id q).phyBusyBus = s.phyBusyBus := by cases id <;> rfl
@[simp] theorem setQueue_phyBusyUtx (id : QueueId) (q : Queue) : (s.setQueue id q).phyBusyUtx = s.phyBusyUtx := by cases id <;> rfl
@[simp] theorem setQueue_params (id : QueueId) (q : Queue) : (s.setQueue id q).params = s.params := by cases id <;> rfl
@[simp] theorem setQueue_fg (id : QueueId) (q : Queue) : (s.setQueue id q).fg = s.fg := by cases id <;> rfl
@[simp] theorem setQueue_sched (id : QueueId) (q : Queue) : (s.setQueue id q).sched = s.sched := by cases id <;> rfl
@[simp] theorem setQueue_tick (id : QueueId) (q : Queue) : (s.setQueue id q).tick = s.tick := by cases id <;> rfl
@[simp] theorem setQueue_out (id : QueueId) (q : Queue) : (s.setQueue id q).out = s.out := by cases id <;> rfl
@[simp] theorem setQueue_btx_btx (q : Queue) : (s.setQueue .btx q).btx = q := rfl
@[simp] theorem setQueue_btx_brx (q : Queue) : (s.setQueue .btx q).brx = s.brx := rfl
@[simp] theorem setQueue_btx_utx (q : Queue) : (s.setQueue .btx q).utx = s.utx := rfl
@[simp] theorem setQueue_btx_urx (q : Queue) : (s.setQueue .btx q).urx = s.urx := rfl
@[simp] theorem setQueue_brx_btx (q : Queue) : (s.setQueue .brx q).btx = s.btx := rfl
@[simp] theorem setQueue_brx_brx (q : Queue) : (s.setQueue .brx q).brx = q := rfl
@[simp] theorem setQueue_brx_utx (q : Queue) : (s.setQueue .brx q).utx = s.utx := rfl
@[simp] theorem setQueue_brx_urx (q : Queue) : (s.setQueue .brx q).urx = s.urx := rfl
@[simp] theorem setQueue_utx_btx (q : Queue) : (s.setQueue .utx q).btx = s.btx := rfl
@[simp] theorem setQueue_utx_brx (q : Queue) : (s.setQueue .utx q).brx = s.brx := rfl
@[simp] theorem setQueue_utx_utx (q : Queue) : (s.setQueue .utx q).utx = q := rfl
@[simp] theorem setQueue_utx_urx (q : Queue) : (s.setQueue .utx q).urx = s.urx := rfl
@[simp] theorem setQueue_urx_btx (q : Queue) : (s.setQueue .urx q).btx = s.btx := rfl
@[simp] theorem setQueue_urx_brx (q : Queue) : (s.setQueue .urx q).brx = s.brx := rfl
@[simp] theorem setQueue_urx_utx (q : Queue) : (s.setQueue .urx q).utx = s.utx := rfl
@[simp] theorem setQueue_urx_urx (q : Queue) : (s.setQueue .urx q).urx = q := rfl
@[simp] theorem setQueue_queue (id id' : QueueId) (q : Queue) :
    (s.setQueue id q).queue id' = if id' = id then q else s.queue id' := by cases id <;> cases id' <;> rfl
@[simp] theorem setQueue_pend (id : QueueId) (q : Queue) (e' : EventSource) : (s.setQueue id q).pend e' = s.pend e' := by cases id <;> cases e' <;> rfl
@[simp] theorem setQueue_phyBusy (id : QueueId) (q : Queue) (p' : TxPath) : (s.setQueue id q).phyBusy p' = s.phyBusy p' := by cases id <;> cases p' <;> rfl
@[simp] theorem setQueue_cap (id : QueueId) (q : Queue) (id' : QueueId) : (s.setQueue id q).cap id' = s.cap id' := by cases id <;> rfl

/-! ## `setPend` -/

@[simp] theorem setPend_btx (e : EventSource) (v : Bool) : (s.setPend e v).btx = s.btx := by cases e <;> rfl
@[simp] theorem setPend_brx (e : EventSource) (v : Bool) : (s.setPend e v).brx = s.brx := by cases e <;> rfl
@[simp] theorem setPend_utx (e : EventSource) (v : Bool) : (s.setPend e v).utx = s.utx := by cases e <;> rfl
@[simp] theorem setPend_urx (e : EventSource) (v : Bool) : (s.setPend e v).urx = s.urx := by cases e <;> rfl
@[simp] theorem setPend_busStatus (e : EventSource) (v : Bool) : (s.setPend e v).busStatus = s.busStatus := by cases e <;> rfl
@[simp] theorem setPend_uartStatus (e : EventSource) (v : Bool) : (s.setPend e v).uartStatus = s.uartStatus := by cases e <;> rfl
@[simp] theorem setPend_ie (e : EventSource) (v : Bool) : (s.setPend e v).ie = s.ie := by cases e <;> rfl
@[simp] theorem setPend_phyBusyBus (e : EventSource) (v : Bool) : (s.setPend e v).phyBusyBus = s.phyBusyBus := by cases e <;> rfl
@[simp] theorem setPend_phyBusyUtx (e : EventSource) (v : Bool) : (s.setPend e v).phyBusyUtx = s.phyBusyUtx := by cases e <;> rfl
@[simp] theorem setPend_params (e : EventSource) (v : Bool) : (s.setPend e v).params = s.params := by cases e <;> rfl
@[simp] theorem setPend_fg (e : EventSource) (v : Bool) : (s.setPend e v).fg = s.fg := by cases e <;> rfl
@[simp] theorem setPend_sched (e : EventSource) (v : Bool) : (s.setPend e v).sched = s.sched := by cases e <;> rfl
@[simp] theorem setPend_tick (e : EventSource) (v : Bool) : (s.setPend e v).tick = s.tick := by cases e <;> rfl
@[simp] theorem setPend_out (e : EventSource) (v : Bool) : (s.setPend e v).out = s.out := by cases e <;> rfl
@[simp] theorem setPend_busEv_pendBus (v : Bool) : (s.setPend .busEv v).pendBus = v := rfl
@[simp] theorem setPend_busEv_pendUtx (v : Bool) : (s.setPend .busEv v).pendUtx = s.pendUtx := rfl
@[simp] theorem setPend_busEv_pendUrx (v : Bool) : (s.setPend .busEv v).pendUrx = s.pendUrx := rfl
@[simp] theorem setPend_utxEv_pendBus (v : Bool) : (s.setPend .utxEv v).pendBus = s.pendBus := rfl
@[simp] theorem setPend_utxEv_pendUtx (v : Bool) : (s.setPend .utxEv v).pendUtx = v := rfl
@[simp] theorem setPend_utxEv_pendUrx (v : Bool) : (s.setPend .utxEv v).pendUrx = s.pendUrx := rfl
@[simp] theorem setPend_urxEv_pendBus (v : Bool) : (s.setPend .urxEv v).pendBus = s.pendBus := rfl
@[simp] theorem setPend_urxEv_pendUtx (v : Bool) : (s.setPend .urxEv v).pendUtx = s.pendUtx := rfl
@[simp] theorem setPend_urxEv_pendUrx (v : Bool) : (s.setPend .urxEv v).pendUrx = v := rfl
@[simp] theorem setPend_pend (e e' : EventSource) (v : Bool) :
    (s.setPend e v).pend e' = if e' = e then v else s.pend e' := by cases e <;> cases e' <;> rfl
@[simp] theorem setPend_queue (e : EventSource) (v : Bool) (id' : QueueId) : (s.setPend e v).queue id' = s.queue id' := by cases e <;> cases id' <;> rfl
@[simp] theorem setPend_phyBusy (e : EventSource) (v : Bool) (p' : TxPath) : (s.setPend e v).phyBusy p' = s.phyBusy p' := by cases e <;> cases p' <;> rfl
@[simp] theorem setPend_cap (e : EventSource) (v : Bool) (id' : QueueId) : (s.setPend e v).cap id' = s.cap id' := by cases e <;> rfl

/-! ## `setPhyBusy` -/

@[simp] theorem setPhyBusy_btx (p : TxPath) (v : Bool) : (s.setPhyBusy p v).btx = s.btx := by cases p <;> rfl
@[simp] theorem setPhyBusy_brx (p : TxPath) (v : Bool) : (s.setPhyBusy p v).brx = s.brx := by cases p <;> rfl
@[simp] theorem setPhyBusy_utx (p : TxPath) (v : Bool) : (s.setPhyBusy p v).utx = s.utx := by cases p <;> rfl
@[simp] theorem setPhyBusy_urx (p : TxPath) (v : Bool) : (s.setPhyBusy p v).urx = s.urx := by cases p <;> rfl
@[simp] theorem setPhyBusy_busStatus (p : TxPath) (v : Bool) : (s.setPhyBusy p v).busStatus = s.busStatus := by cases p <;> rfl
@[simp] theorem setPhyBusy_uartStatus (p : TxPath) (v : Bool) : (s.setPhyBusy p v).uartStatus = s.uartStatus := by cases p <;> rfl
@[simp] theorem setPhyBusy_ie (p : TxPath) (v : Bool) : (s.setPhyBusy p v).ie = s.ie := by cases p <;> rfl
@[simp] theorem setPhyBusy_pendBus (p : TxPath) (v : Bool) : (s.setPhyBusy p v).pendBus = s.pendBus := by cases p <;> rfl
@[simp] theorem setPhyBusy_pendUtx (p : TxPath) (v : Bool) : (s.setPhyBusy p v).pendUtx = s.pendUtx := by cases p <;> rfl
@[simp] theorem setPhyBusy_pendUrx (p : TxPath) (v : Bool) : (s.setPhyBusy p v).pendUrx = s.pendUrx := by cases p <;> rfl
@[simp] theorem setPhyBusy_params (p : TxPath) (v : Bool) : (s.setPhyBusy p v).params = s.params := by cases p <;> rfl
@[simp] theorem setPhyBusy_fg (p : TxPath) (v : Bool) : (s.setPhyBusy p v).fg = s.fg := by cases p <;> rfl
@[simp] theorem setPhyBusy_sched (p : TxPath) (v : Bool) : (s.setPhyBusy p v).sched = s.sched := by cases p <;> rfl
@[simp] theorem setPhyBusy_tick (p : TxPath) (v : Bool) : (s.setPhyBusy p v).tick = s.tick := by cases p <;> rfl
@[simp] theorem setPhyBusy_out (p : TxPath) (v : Bool) : (s.setPhyBusy p v).out = s.out := by cases p <;> rfl
@[simp] theorem setPhyBusy_bus_phyBusyBus (v : Bool) : (s.setPhyBusy .bus v).phyBusyBus = v := rfl
@[simp] theorem setPhyBusy_bus_phyBusyUtx (v : Bool) : (s.setPhyBusy .bus v).phyBusyUtx = s.phyBusyUtx := rfl
@[simp] theorem setPhyBusy_utx_phyBusyBus (v : Bool) : (s.setPhyBusy .utx v).phyBusyBus = s.phyBusyBus := rfl
@[simp] theorem setPhyBusy_utx_phyBusyUtx (v : Bool) : (s.setPhyBusy .utx v).phyBusyUtx = v := rfl
@[simp] theorem setPhyBusy_phyBusy (p p' : TxPath) (v : Bool) :
    (s.setPhyBusy p v).phyBusy p' = if p' = p then v else s.phyBusy p' := by cases p <;> cases p' <;> rfl
@[simp] theorem setPhyBusy_queue (p : TxPath) (v : Bool) (id' : QueueId) : (s.setPhyBusy p v).queue id' = s.queue id' := by cases p <;> cases id' <;> rfl
@[simp] theorem setPhyBusy_pend (p : TxPath) (v : Bool) (e' : EventSource) : (s.setPhyBusy p v).pend e' = s.pend e' := by cases p <;> cases e' <;> rfl
@[simp] theorem setPhyBusy_cap (p : TxPath) (v : Bool) (id' : QueueId) : (s.setPhyBusy p v).cap id' = s.cap id' := by cases p <;> rfl

/-! ## `setBusStatus` -/

@[simp] theorem setBusStatus_btx (v : BusStatus) : (s.setBusStatus v).btx = s.btx := rfl
@[simp] theorem setBusStatus_brx (v : BusStatus) : (s.setBusStatus v).brx = s.brx := rfl
@[simp] theorem setBusStatus_utx (v : BusStatus) : (s.setBusStatus v).utx = s.utx := rfl
@[simp] theorem setBusStatus_urx (v : BusStatus) : (s.setBusStatus v).urx = s.urx := rfl
@[simp] theorem setBusStatus_uartStatus (v : BusStatus) : (s.setBusStatus v).uartStatus = s.uartStatus := rfl
@[simp] theorem setBusStatus_ie (v : BusStatus) : (s.setBusStatus v).ie = s.ie := rfl
@[simp] theorem setBusStatus_pendBus (v : BusStatus) : (s.setBusStatus v).pendBus = s.pendBus := rfl
@[simp] theorem setBusStatus_pendUtx (v : BusStatus) : (s.setBusStatus v).pendUtx = s.pendUtx := rfl
@[simp] theorem setBusStatus_pendUrx (v : BusStatus) : (s.setBusStatus v).pendUrx = s.pendUrx := rfl
@[simp] theorem setBusStatus_phyBusyBus (v : BusStatus) : (s.setBusStatus v).phyBusyBus = s.phyBusyBus := rfl
@[simp] theorem setBusStatus_phyBusyUtx (v : BusStatus) : (s.setBusStatus v).phyBusyUtx = s.phyBusyUtx := rfl
@[simp] theorem setBusStatus_params (v : BusStatus) : (s.setBusStatus v).params = s.params := rfl
@[simp] theorem setBusStatus_fg (v : BusStatus) : (s.setBusStatus v).fg = s.fg := rfl
@[simp] theorem setBusStatus_sched (v : BusStatus) : (s.setBusStatus v).sched = s.sched := rfl
@[simp] theorem setBusStatus_tick (v : BusStatus) : (s.setBusStatus v).tick = s.tick := rfl
@[simp] theorem setBusStatus_out (v : BusStatus) : (s.setBusStatus v).out = s.out := rfl
@[simp] theorem setBusStatus_busStatus (v : BusStatus) : (s.setBusStatus v).busStatus = v := rfl
@[simp] theorem setBusStatus_queue (v : BusStatus) (id' : QueueId) : (s.setBusStatus v).queue id' = s.queue id' := by cases id' <;> rfl
@[simp] theorem setBusStatus_pend (v : BusStatus) (e' : EventSource) : (s.setBusStatus v).pend e' = s.pend e' := by cases e' <;> rfl
@[simp] theorem setBusStatus_phyBusy (v : BusStatus) (p' : TxPath) : (s.setBusStatus v).phyBusy p' = s.phyBusy p' := by cases p' <;> rfl
@[simp] theorem setBusStatus_cap (v : BusStatus) (id' : QueueId) : (s.setBusStatus v).cap id' = s.cap id' := rfl

/-! ## `setUartStatus` -/

@[simp] theorem setUartStatus_btx (v : UartStatus) : (s.setUartStatus v).btx = s.btx := rfl
@[simp] theorem setUartStatus_brx (v : UartStatus) : (s.setUartStatus v).brx = s.brx := rfl
@[simp] theorem setUartStatus_utx (v : UartStatus) : (s.setUartStatus v).utx = s.utx := rfl
@[simp] theorem setUartStatus_urx (v : UartStatus) : (s.setUartStatus v).urx = s.urx := rfl
@[simp] theorem setUartStatus_busStatus (v : UartStatus) : (s.setUartStatus v).busStatus = s.busStatus := rfl
@[simp] theorem setUartStatus_ie (v : UartStatus) : (s.setUartStatus v).ie = s.ie := rfl
@[simp] theorem setUartStatus_pendBus (v : UartStatus) : (s.setUartStatus v).pendBus = s.pendBus := rfl
@[simp] theorem setUartStatus_pendUtx (v : UartStatus) : (s.setUartStatus v).pendUtx = s.pendUtx := rfl
@[simp] theorem setUartStatus_pendUrx (v : UartStatus) : (s.setUartStatus v).pendUrx = s.pendUrx := rfl
@[simp] theorem setUartStatus_phyBusyBus (v : UartStatus) : (s.setUartStatus v).phyBusyBus = s.phyBusyBus := rfl
@[simp] theorem setUartStatus_phyBusyUtx (v : UartStatus) : (s.setUartStatus v).phyBusyUtx = s.phyBusyUtx := rfl
@[simp] theorem setUartStatus_params (v : UartStatus) : (s.setUartStatus v).params = s.params := rfl
@[simp] theorem setUartStatus_fg (v : UartStatus) : (s.setUartStatus v).fg = s.fg := rfl
@[simp] theorem setUartStatus_sched (v : UartStatus) : (s.setUartStatus v).sched = s.sched := rfl
@[simp] theorem setUartStatus_tick (v : UartStatus) : (s.setUartStatus v).tick = s.tick := rfl
@[simp] theorem setUartStatus_out (v : UartStatus) : (s.setUartStatus v).out = s.out := rfl
@[simp] theorem setUartStatus_uartStatus (v : UartStatus) : (s.setUartStatus v).uartStatus = v := rfl
@[simp] theorem setUartStatus_queue (v : UartStatus) (id' : QueueId) : (s.setUartStatus v).queue id' = s.queue id' := by cases id' <;> rfl
@[simp] theorem setUartStatus_pend (v : UartStatus) (e' : EventSource) : (s.setUartStatus v).pend e' = s.pend e' := by cases e' <;> rfl
@[simp] theorem setUartStatus_phyBusy (v : UartStatus) (p' : TxPath) : (s.setUartStatus v).phyBusy p' = s.phyBusy p' := by cases p' <;> rfl
@[simp] theorem setUartStatus_cap (v : UartStatus) (id' : QueueId) : (s.setUartStatus v).cap id' = s.cap id' := rfl

/-! ## `setIe` -/

@[simp] theorem setIe_btx (v : Bool) : (s.setIe v).btx = s.btx := rfl
@[simp] theorem setIe_brx (v : Bool) : (s.setIe v).brx = s.brx := rfl
@[simp] theorem setIe_utx (v : Bool) : (s.setIe v).utx = s.utx := rfl
@[simp] theorem setIe_urx (v : Bool) : (s.setIe v).urx = s.urx := rfl
@[simp] theorem setIe_busStatus (v : Bool) : (s.setIe v).busStatus = s.busStatus := rfl
@[simp] theorem setIe_uartStatus (v : Bool) : (s.setIe v).uartStatus = s.uartStatus := rfl
@[simp] theorem setIe_pendBus (v : Bool) : (s.setIe v).pendBus = s.pendBus := rfl
@[simp] theorem setIe_pendUtx (v : Bool) : (s.setIe v).pendUtx = s.pendUtx := rfl
@[simp] theorem setIe_pendUrx (v : Bool) : (s.setIe v).pendUrx = s.pendUrx := rfl
@[simp] theorem setIe_phyBusyBus (v : Bool) : (s.setIe v).phyBusyBus = s.phyBusyBus := rfl
@[simp] theorem setIe_phyBusyUtx (v : Bool) : (s.setIe v).phyBusyUtx = s.phyBusyUtx := rfl
@[simp] theorem setIe_params (v : Bool) : (s.setIe v).params = s.params := rfl
@[simp] theorem setIe_fg (v : Bool) : (s.setIe v).fg = s.fg := rfl
@[simp] theorem setIe_sched (v : Bool) : (s.setIe v).sched = s.sched := rfl
@[simp] theorem setIe_tick (v : Bool) : (s.setIe v).tick = s.tick := rfl
@[simp] theorem setIe_out (v : Bool) : (s.setIe v).out = s.out := rfl
@[simp] theorem setIe_ie (v : Bool) : (s.setIe v).ie = v := rfl
@[simp] theorem setIe_queue (v : Bool) (id' : QueueId) : (s.setIe v).queue id' = s.queue id' := by cases id' <;> rfl
@[simp] theorem setIe_pend (v : Bool) (e' : EventSource) : (s.setIe v).pend e' = s.pend e' := by cases e' <;> rfl
@[simp] theorem setIe_phyBusy (v : Bool) (p' : TxPath) : (s.setIe v).phyBusy p' = s.phyBusy p' := by cases p' <;> rfl
@[simp] theorem setIe_cap (v : Bool) (id' : QueueId) : (s.setIe v).cap id' = s.cap id' := rfl

/-! ## `setFg` -/

@[simp] theorem setFg_btx (ws : List Word) : (s.setFg ws).btx = s.btx := rfl
@[simp] theorem setFg_brx (ws : List Word) : (s.setFg ws).brx = s.brx := rfl
@[simp] theorem setFg_utx (ws : List Word) : (s.setFg ws).utx = s.utx := rfl
@[simp] theorem setFg_urx (ws : List Word) : (s.setFg ws).urx = s.urx := rfl
@[simp] theorem setFg_busStatus (ws : List Word) : (s.setFg ws).busStatus = s.busStatus := rfl
@[simp] theorem setFg_uartStatus (ws : List Word) : (s.setFg ws).uartStatus = s.uartStatus := rfl
@[simp] theorem setFg_ie (ws : List Word) : (s.setFg ws).ie = s.ie := rfl
@[simp] theorem setFg_pendBus (ws : List Word) : (s.setFg ws).pendBus = s.pendBus := rfl
@[simp] theorem setFg_pendUtx (ws : List Word) : (s.setFg ws).pendUtx = s.pendUtx := rfl
@[simp] theorem setFg_pendUrx (ws : List Word) : (s.setFg ws).pendUrx = s.pendUrx := rfl
@[simp] theorem setFg_phyBusyBus (ws : List Word) : (s.setFg ws).phyBusyBus = s.phyBusyBus := rfl
@[simp] theorem setFg_phyBusyUtx (ws : List Word) : (s.setFg ws).phyBusyUtx = s.phyBusyUtx := rfl
@[simp] theorem setFg_params (ws : List Word) : (s.setFg ws).params = s.params := rfl
@[simp] theorem setFg_sched (ws : List Word) : (s.setFg ws).sched = s.sched := rfl
@[simp] theorem setFg_tick (ws : List Word) : (s.setFg ws).tick = s.tick := rfl
@[simp] theorem setFg_out (ws : List Word) : (s.setFg ws).out = s.out := rfl
@[simp] theorem setFg_fg (ws : List Word) : (s.setFg ws).fg = ws := rfl
@[simp] theorem setFg_queue (ws : List Word) (id' : QueueId) : (s.setFg ws).queue id' = s.queue id' := by cases id' <;> rfl
@[simp] theorem setFg_pend (ws : List Word) (e' : EventSource) : (s.setFg ws).pend e' = s.pend e' := by cases e' <;> rfl
@[simp] theorem setFg_phyBusy (ws : List Word) (p' : TxPath) : (s.setFg ws).phyBusy p' = s.phyBusy p' := by cases p' <;> rfl
@[simp] theorem setFg_cap (ws : List Word) (id' : QueueId) : (s.setFg ws).cap id' = s.cap id' := rfl

/-! ## `setSched` -/

@[simp] theorem setSched_btx (ms : List Move) : (s.setSched ms).btx = s.btx := rfl
@[simp] theorem setSched_brx (ms : List Move) : (s.setSched ms).brx = s.brx := rfl
@[simp] theorem setSched_utx (ms : List Move) : (s.setSched ms).utx = s.utx := rfl
@[simp] theorem setSched_urx (ms : List Move) : (s.setSched ms).urx = s.urx := rfl
@[simp] theorem setSched_busStatus (ms : List Move) : (s.setSched ms).busStatus = s.busStatus := rfl
@[simp] theorem setSched_uartStatus (ms : List Move) : (s.setSched ms).uartStatus = s.uartStatus := rfl
@[simp] theorem setSched_ie (ms : List Move) : (s.setSched ms).ie = s.ie := rfl
@[simp] theorem setSched_pendBus (ms : List Move) : (s.setSched ms).pendBus = s.pendBus := rfl
@[simp] theorem setSched_pendUtx (ms : List Move) : (s.setSched ms).pendUtx = s.pendUtx := rfl
@[simp] theorem setSched_pendUrx (ms : List Move) : (s.setSched ms).pendUrx = s.pendUrx := rfl
@[simp] theorem setSched_phyBusyBus (ms : List Move) : (s.setSched ms).phyBusyBus = s.phyBusyBus := rfl
@[simp] theorem setSched_phyBusyUtx (ms : List Move) : (s.setSched ms).phyBusyUtx = s.phyBusyUtx := rfl
@[simp] theorem setSched_params (ms : List Move) : (s.setSched ms).params = s.params := rfl
@[simp] theorem setSched_fg (ms : List Move) : (s.setSched ms).fg = s.fg := rfl
@[simp] theorem setSched_tick (ms : List Move) : (s.setSched ms).tick = s.tick := rfl
@[simp] theorem setSched_out (ms : List Move) : (s.setSched ms).out = s.out := rfl
@[simp] theorem setSched_sched (ms : List Move) : (s.setSched ms).sched = ms := rfl
@[simp] theorem setSched_queue (ms : List Move) (id' : QueueId) : (s.setSched ms).queue id' = s.queue id' := by cases id' <;> rfl
@[simp] theorem setSched_pend (ms : List Move) (e' : EventSource) : (s.setSched ms).pend e' = s.pend e' := by cases e' <;> rfl
@[simp] theorem setSched_phyBusy (ms : List Move) (p' : TxPath) : (s.setSched ms).phyBusy p' = s.phyBusy p' := by cases p' <;> rfl
@[simp] theorem setSched_cap (ms : List Move) (id' : QueueId) : (s.setSched ms).cap id' = s.cap id' := rfl

/-! ## `setTick` -/

@[simp] theorem setTick_btx (n : Nat) : (s.setTick n).btx = s.btx := rfl
@[simp] theorem setTick_brx (n : Nat) : (s.setTick n).brx = s.brx := rfl
@[simp] theorem setTick_utx (n : Nat) : (s.setTick n).utx = s.utx := rfl
@[simp] theorem setTick_urx (n : Nat) : (s.setTick n).urx = s.urx := rfl
@[simp] theorem setTick_busStatus (n : Nat) : (s.setTick n).busStatus = s.busStatus := rfl
@[simp] theorem setTick_uartStatus (n : Nat) : (s.setTick n).uartStatus = s.uartStatus := rfl
@[simp] theorem setTick_ie (n : Nat) : (s.setTick n).ie = s.ie := rfl
@[simp] theorem setTick_pendBus (n : Nat) : (s.setTick n).pendBus = s.pendBus := rfl
@[simp] theorem setTick_pendUtx (n : Nat) : (s.setTick n).pendUtx = s.pendUtx := rfl
@[simp] theorem setTick_pendUrx (n : Nat) : (s.setTick n).pendUrx = s.pendUrx := rfl
@[simp] theorem setTick_phyBusyBus (n : Nat) : (s.setTick n).phyBusyBus = s.phyBusyBus := rfl
@[simp] theorem setTick_phyBusyUtx (n : Nat) : (s.setTick n).phyBusyUtx = s.phyBusyUtx := rfl
@[simp] theorem setTick_params (n : Nat) : (s.setTick n).params = s.params := rfl
@[simp] theorem setTick_fg (n : Nat) : (s.setTick n).fg = s.fg := rfl
@[simp] theorem setTick_sched (n : Nat) : (s.setTick n).sched = s.sched := rfl
@[simp] theorem setTick_out (n : Nat) : (s.setTick n).out = s.out := rfl
@[simp] theorem setTick_tick (n : Nat) : (s.setTick n).tick = n := rfl
@[simp] theorem setTick_queue (n : Nat) (id' : QueueId) : (s.setTick n).queue id' = s.queue id' := by cases id' <;> rfl
@[simp] theorem setTick_pend (n : Nat) (e' : EventSource) : (s.setTick n).pend e' = s.pend e' := by cases e' <;> rfl
@[simp] theorem setTick_phyBusy (n : Nat) (p' : TxPath) : (s.setTick n).phyBusy p' = s.phyBusy p' := by cases p' <;> rfl
@[simp] theorem setTick_cap (n : Nat) (id' : QueueId) : (s.setTick n).cap id' = s.cap id' := rfl

/-! ## `emit` -/

@[simp] theorem emit_btx (o : Output) : (s.emit o).btx = s.btx := rfl
@[simp] theorem emit_brx (o : Output) : (s.emit o).brx = s.brx := rfl
@[simp] theorem emit_utx (o : Output) : (s.emit o).utx = s.utx := rfl
@[simp] theorem emit_urx (o : Output) : (s.emit o).urx = s.urx := rfl
@[simp] theorem emit_busStatus (o : Output) : (s.emit o).busStatus = s.busStatus := rfl
@[simp] theorem emit_uartStatus (o : Output) : (s.emit o).uartStatus = s.uartStatus := rfl
@[simp] theorem emit_ie (o : Output) : (s.emit o).ie = s.ie := rfl
@[simp] theorem emit_pendBus (o : Output) : (s.emit o).pendBus = s.pendBus := rfl
@[simp] theorem emit_pendUtx (o : Output) : (s.emit o).pendUtx = s.pendUtx := rfl
@[simp] theorem emit_pendUrx (o : Output) : (s.emit o).pendUrx = s.pendUrx := rfl
@[simp] theorem emit_phyBusyBus (o : Output) : (s.emit o).phyBusyBus = s.phyBusyBus := rfl
@[simp] theorem emit_phyBusyUtx (o : Output) : (s.emit o).phyBusyUtx = s.phyBusyUtx := rfl
@[simp] theorem emit_params (o : Output) : (s.emit o).params = s.params := rfl
@[simp] theorem emit_fg (o : Output) : (s.emit o).fg = s.fg := rfl
@[simp] theorem emit_sched (o : Output) : (s.emit o).sched = s.sched := rfl
@[simp] theorem emit_tick (o : Output) : (s.emit o).tick = s.tick := rfl
@[simp] theorem emit_out (o : Output) : (s.emit o).out = s.out ++ [o] := rfl
@[simp] theorem emit_queue (o : Output) (id' : QueueId) : (s.emit o).queue id' = s.queue id' := by cases id' <;> rfl
@[simp] theorem emit_pend (o : Output) (e' : EventSource) : (s.emit o).pend e' = s.pend e' := by cases e' <;> rfl
@[simp] theorem emit_phyBusy (o : Output) (p' : TxPath) : (s.emit o).phyBusy p' = s.phyBusy p' := by cases p' <;> rfl
@[simp] theorem emit_cap (o : Output) (id' : QueueId) : (s.emit o).cap id' = s.cap id' := rfl

end Sys2Proof.Machine
end

