-- ==== Sys2Proof/Laws/Frames.lean ====
section
/-! SUPPORT. The invariant and the content of a state's queues under the updates, and the frames of the shared
operations. -/

namespace Sys2Proof.Machine

variable {s t : State}

/-- The invariant, queue by queue. -/
theorem inv_iff : s.Inv ↔ ∀ q, (s.queue q).Wf (s.cap q) := by
  constructor
  · rintro ⟨h1, h2, h3, h4⟩ q
    cases q <;> assumption
  · intro h
    exact ⟨h .btx, h .brx, h .utx, h .urx⟩

/-- A state with the same parameters and queues has the invariant too. -/
theorem inv_of_same_queues (hi : s.Inv) (hp : t.params = s.params) (hq : ∀ q, t.queue q = s.queue q) : t.Inv :=
  inv_iff.mpr fun q => by
    have := inv_iff.mp hi q
    simpa [State.cap, hp, hq q] using this

/-- Replacing a queue by one that keeps its invariant keeps the invariant. -/
theorem inv_setQueue (hi : s.Inv) (id : QueueId) {q : Queue} (hw : q.Wf (s.cap id)) : (s.setQueue id q).Inv :=
  inv_iff.mpr fun id' => by
    have := inv_iff.mp hi id'
    by_cases h : id' = id
    · subst h; simpa using hw
    · simpa [h] using this

theorem content_def (q : QueueId) : s.content q = (s.queue q).content (s.cap q) := rfl

/-- The content of a queue depends on the parameters and that queue alone. -/
theorem content_of_same (q : QueueId) (hp : t.params = s.params) (hq : t.queue q = s.queue q) :
    t.content q = s.content q := by simp [content_def, State.cap, hp, hq]

@[simp] theorem content_setQueue (id id' : QueueId) (q : Queue) :
    (s.setQueue id q).content id' = if id' = id then q.content (s.cap id) else s.content id' := by
  by_cases h : id' = id
  · subst h; simp [content_def]
  · simp [content_def, h]

@[simp] theorem content_emit (o : Output) (q : QueueId) : (s.emit o).content q = s.content q := by simp [content_def]
@[simp] theorem content_setPend (e : EventSource) (v : Bool) (q : QueueId) :
    (s.setPend e v).content q = s.content q := by simp [content_def]
@[simp] theorem content_setPhyBusy (p : TxPath) (v : Bool) (q : QueueId) :
    (s.setPhyBusy p v).content q = s.content q := by simp [content_def]
@[simp] theorem content_setBusStatus (v : BusStatus) (q : QueueId) :
    (s.setBusStatus v).content q = s.content q := by simp [content_def]
@[simp] theorem content_setUartStatus (v : UartStatus) (q : QueueId) :
    (s.setUartStatus v).content q = s.content q := by simp [content_def]
@[simp] theorem content_setIe (v : Bool) (q : QueueId) : (s.setIe v).content q = s.content q := by simp [content_def]
@[simp] theorem content_setFg (ws : List Word) (q : QueueId) : (s.setFg ws).content q = s.content q := by
  simp [content_def]
@[simp] theorem content_setSched (ms : List Move) (q : QueueId) : (s.setSched ms).content q = s.content q := by
  simp [content_def]
@[simp] theorem content_setTick (n : Nat) (q : QueueId) : (s.setTick n).content q = s.content q := by
  simp [content_def]

/-! ## Claims over all queues, events, paths and channels, and frames, as plain conjunctions -/

theorem forall_queueId {P : QueueId → Prop} : (∀ q, P q) ↔ P .btx ∧ P .brx ∧ P .utx ∧ P .urx :=
  ⟨fun h => ⟨h _, h _, h _, h _⟩, fun ⟨h1, h2, h3, h4⟩ q => by cases q <;> assumption⟩

theorem forall_eventSource {P : EventSource → Prop} : (∀ e, P e) ↔ P .busEv ∧ P .utxEv ∧ P .urxEv :=
  ⟨fun h => ⟨h _, h _, h _⟩, fun ⟨h1, h2, h3⟩ e => by cases e <;> assumption⟩

theorem forall_txPath {P : TxPath → Prop} : (∀ p, P p) ↔ P .bus ∧ P .utx :=
  ⟨fun h => ⟨h _, h _⟩, fun ⟨h1, h2⟩ p => by cases p <;> assumption⟩

theorem forall_channel {P : Channel → Prop} : (∀ ch, P ch) ↔ P .bus ∧ P .uart :=
  ⟨fun h => ⟨h _, h _⟩, fun ⟨h1, h2⟩ ch => by cases ch <;> assumption⟩

theorem keepsInputs_iff :
    KeepsInputs s t ↔ t.params = s.params ∧ t.fg = s.fg ∧ t.sched = s.sched ∧ t.tick = s.tick :=
  ⟨fun ⟨h1, h2, h3, h4⟩ => ⟨h1, h2, h3, h4⟩, fun ⟨h1, h2, h3, h4⟩ => ⟨h1, h2, h3, h4⟩⟩

theorem keepsLatches_iff :
    KeepsLatches s t ↔ t.ie = s.ie ∧ (∀ e, t.pend e = s.pend e) ∧ ∀ p, t.phyBusy p = s.phyBusy p :=
  ⟨fun ⟨h1, h2, h3⟩ => ⟨h1, h2, h3⟩, fun ⟨h1, h2, h3⟩ => ⟨h1, h2, h3⟩⟩

theorem keepsStatus_iff : KeepsStatus s t ↔ t.busStatus = s.busStatus ∧ t.uartStatus = s.uartStatus :=
  ⟨fun ⟨h1, h2⟩ => ⟨h1, h2⟩, fun ⟨h1, h2⟩ => ⟨h1, h2⟩⟩

theorem keepsBus_iff :
    KeepsBus s t ↔ t.btx = s.btx ∧ t.brx = s.brx ∧ t.busStatus = s.busStatus ∧ t.pendBus = s.pendBus ∧
      t.phyBusyBus = s.phyBusyBus :=
  ⟨fun ⟨h1, h2, h3, h4, h5⟩ => ⟨h1, h2, h3, h4, h5⟩, fun ⟨h1, h2, h3, h4, h5⟩ => ⟨h1, h2, h3, h4, h5⟩⟩

theorem keepsUart_iff :
    KeepsUart s t ↔ t.utx = s.utx ∧ t.urx = s.urx ∧ t.uartStatus = s.uartStatus ∧ t.pendUtx = s.pendUtx ∧
      t.pendUrx = s.pendUrx ∧ t.phyBusyUtx = s.phyBusyUtx :=
  ⟨fun ⟨h1, h2, h3, h4, h5, h6⟩ => ⟨h1, h2, h3, h4, h5, h6⟩,
    fun ⟨h1, h2, h3, h4, h5, h6⟩ => ⟨h1, h2, h3, h4, h5, h6⟩⟩

theorem keepsPort_iff : KeepsPort s t ↔ t.params = s.params ∧ t.fg = s.fg ∧ t.ie = s.ie :=
  ⟨fun ⟨h1, h2, h3⟩ => ⟨h1, h2, h3⟩, fun ⟨h1, h2, h3⟩ => ⟨h1, h2, h3⟩⟩

/-! ## The frames of the shared updates -/

/-- Changing one queue and the observation changes nothing else. -/
theorem keepsAllBut_setQueue_emit (id : QueueId) (q : Queue) (o : Output) :
    KeepsAllBut id s ((s.setQueue id q).emit o) :=
  ⟨fun id' h => by simp at h; simp [h], ⟨by simp, by simp⟩, ⟨by simp, by simp, by simp⟩,
    ⟨by simp, by simp, by simp, by simp⟩⟩

/-- Adding to the observation changes nothing else. -/
theorem keepsAllBut_emit (id : QueueId) (o : Output) : KeepsAllBut id s (s.emit o) :=
  ⟨fun _ _ => by simp, ⟨by simp, by simp⟩, ⟨by simp, by simp, by simp⟩, ⟨by simp, by simp, by simp, by simp⟩⟩

/-- The response of an OK command is its VALUE zero-extended to a word (R77). -/
theorem responseWord_ok (v : Half) : responseWord .ok v = 0#16 ++ v := by
  apply BitVec.eq_of_toNat_eq
  simp [responseWord, RC.code]

/-- The response that carries a byte is the byte zero-extended to a word (R77). -/
theorem responseWord_ok_zext16 (b : Byte) : responseWord .ok (zext16 b) = 0#24 ++ b := by
  rw [responseWord_ok]
  apply BitVec.eq_of_getLsbD_eq
  intro i hi
  rw [BitVec.getLsbD_append, BitVec.getLsbD_append, zext16, BitVec.getLsbD_setWidth]
  by_cases h8 : i < 8
  · simp [h8, show i < 16 by omega]
  · simp [h8, BitVec.getLsbD_of_ge b i (by omega)]

/-! ## The arbiter -/

/-- `arbAllows` says what R201 says. -/
theorem arbAllows_iff (s : State) (e : EventSource) (hp : s.pend e = true) :
    arbAllows s e = true ↔ ArbAllowed s e := by
  simp only [arbAllows, ArbAllowed]
  split
  · rename_i h; simp [h]
  · rename_i order h
    simp only [h, beq_iff_eq, List.find?_eq_some_iff_append, hp, true_and, reduceCtorEq, false_or]
    simp

/-- A dispatch is enabled exactly when IE, the latch and ARB_ORDER allow it (R196). -/
theorem canDispatch_iff (s : State) (e : EventSource) :
    canDispatch s e = true ↔ s.ie = true ∧ s.pend e = true ∧ ArbAllowed s e := by
  simp only [canDispatch, Bool.and_eq_true, and_assoc]
  constructor
  · rintro ⟨h1, h2, h3⟩; exact ⟨h1, h2, (arbAllows_iff s e h2).mp h3⟩
  · rintro ⟨h1, h2, h3⟩; exact ⟨h1, h2, (arbAllows_iff s e h2).mpr h3⟩

end Sys2Proof.Machine
end

