-- ==== Sys2Proof/Laws/Step.lean ====
section
/-! SUPPORT. What a step can do, said once (R194 to R200): each command's next state, the state after a choice is taken
off, and the cases of a step that answers a next state. -/

namespace Sys2Proof.Machine

variable {s t : State}

/-! ## Each command's next state -/

@[simp] theorem exec_push (q : QueueId) (b : Byte) : exec (.push q b) s =
    .next ((s.setQueue q (qPush (s.cap q) (s.queue q) b).2).respond (qPush (s.cap q) (s.queue q) b).1 0#16) := rfl
@[simp] theorem exec_pushMany (q : QueueId) (bs : List Byte) : exec (.pushMany q bs) s =
    .next ((s.setQueue q (qPushMany (s.cap q) (s.queue q) bs).2).respond
      (qPushMany (s.cap q) (s.queue q) bs).1 0#16) := rfl
@[simp] theorem exec_pop (q : QueueId) : exec (.pop q) s =
    .next ((s.setQueue q (qPop (s.cap q) (s.queue q)).2.2).respond (qPop (s.cap q) (s.queue q)).1
      (zext16 (qPop (s.cap q) (s.queue q)).2.1)) := rfl
@[simp] theorem exec_popAll (q : QueueId) : exec (.popAll q) s =
    .next ((s.setQueue q (qPopAll (s.queue q))).respond .ok 0#16) := rfl
@[simp] theorem exec_len (q : QueueId) : exec (.len q) s = .next (s.respond .ok (qLen (s.queue q))) := rfl
@[simp] theorem exec_frontPeek (q : QueueId) : exec (.frontPeek q) s =
    .next (s.respond (qFront (s.queue q)).1 (zext16 (qFront (s.queue q)).2)) := rfl
@[simp] theorem exec_backPeek (q : QueueId) : exec (.backPeek q) s =
    .next (s.respond (qBack (s.cap q) (s.queue q)).1 (zext16 (qBack (s.cap q) (s.queue q)).2)) := rfl
@[simp] theorem exec_isEmpty (q : QueueId) : exec (.isEmpty q) s =
    .next (s.respond .ok (flagHalf (s.queue q).isEmpty)) := rfl
@[simp] theorem exec_isFull (q : QueueId) : exec (.isFull q) s =
    .next (s.respond .ok (flagHalf ((s.queue q).isFull (s.cap q)))) := rfl
@[simp] theorem exec_transmit (ch : Channel) (b : Byte) : exec (.transmit ch b) s =
    .next ((transmitEffect ch b s).respond .ok 0#16) := rfl
@[simp] theorem exec_readStatus (ch : Channel) : exec (.readStatus ch) s =
    .next (s.respond .ok (zext16 (s.statusCode ch))) := rfl
@[simp] theorem exec_init (ch : Channel) : exec (.init ch) s = .next ((initEffect ch s).respond .ok 0#16) := rfl
@[simp] theorem exec_ieswap (v : Bool) : exec (.ieswap v) s =
    .next ((s.setIe v).respond .ok (flagHalf s.ie)) := rfl

/-- TRANSMIT on a full send queue (R140). -/
theorem transmitEffect_of_full (ch : Channel) (b : Byte)
    (h : (s.queue (txq ch)).len.toNat = (s.cap (txq ch)).val) : transmitEffect ch b s = s.setOverflow ch := by
  simp [transmitEffect, qPush_of_full b h]

/-- TRANSMIT with room in the send queue (R140). -/
theorem transmitEffect_of_room (ch : Channel) (b : Byte)
    (h : (s.queue (txq ch)).len.toNat ≠ (s.cap (txq ch)).val) :
    transmitEffect ch b s =
      if s.statusIsIdle ch = true then
        (s.setQueue (txq ch) (qPush (s.cap (txq ch)) (s.queue (txq ch)) b).2).setPend (txev ch) true
      else s.setQueue (txq ch) (qPush (s.cap (txq ch)) (s.queue (txq ch)) b).2 := by
  have : (qPush (s.cap (txq ch)) (s.queue (txq ch)) b).1 ≠ .full := fun e => h ((qPush_rc_full_iff b).mp e)
  simp [transmitEffect, this]

/-! ## The state after a choice is taken off -/

@[simp] theorem afterChoice_btx (s : State) : (afterChoice s).btx = s.btx := by unfold afterChoice; split <;> rfl
@[simp] theorem afterChoice_brx (s : State) : (afterChoice s).brx = s.brx := by unfold afterChoice; split <;> rfl
@[simp] theorem afterChoice_utx (s : State) : (afterChoice s).utx = s.utx := by unfold afterChoice; split <;> rfl
@[simp] theorem afterChoice_urx (s : State) : (afterChoice s).urx = s.urx := by unfold afterChoice; split <;> rfl
@[simp] theorem afterChoice_busStatus (s : State) : (afterChoice s).busStatus = s.busStatus := by unfold afterChoice; split <;> rfl
@[simp] theorem afterChoice_uartStatus (s : State) : (afterChoice s).uartStatus = s.uartStatus := by unfold afterChoice; split <;> rfl
@[simp] theorem afterChoice_ie (s : State) : (afterChoice s).ie = s.ie := by unfold afterChoice; split <;> rfl
@[simp] theorem afterChoice_pendBus (s : State) : (afterChoice s).pendBus = s.pendBus := by unfold afterChoice; split <;> rfl
@[simp] theorem afterChoice_pendUtx (s : State) : (afterChoice s).pendUtx = s.pendUtx := by unfold afterChoice; split <;> rfl
@[simp] theorem afterChoice_pendUrx (s : State) : (afterChoice s).pendUrx = s.pendUrx := by unfold afterChoice; split <;> rfl
@[simp] theorem afterChoice_phyBusyBus (s : State) : (afterChoice s).phyBusyBus = s.phyBusyBus := by unfold afterChoice; split <;> rfl
@[simp] theorem afterChoice_phyBusyUtx (s : State) : (afterChoice s).phyBusyUtx = s.phyBusyUtx := by unfold afterChoice; split <;> rfl
@[simp] theorem afterChoice_params (s : State) : (afterChoice s).params = s.params := by unfold afterChoice; split <;> rfl
@[simp] theorem afterChoice_fg (s : State) : (afterChoice s).fg = s.fg := by unfold afterChoice; split <;> rfl
@[simp] theorem afterChoice_out (s : State) : (afterChoice s).out = s.out := by unfold afterChoice; split <;> rfl
@[simp] theorem afterChoice_queue (s : State) (q : QueueId) : (afterChoice s).queue q = s.queue q := by
  cases q <;> simp
@[simp] theorem afterChoice_pend (s : State) (e : EventSource) : (afterChoice s).pend e = s.pend e := by
  cases e <;> simp
@[simp] theorem afterChoice_phyBusy (s : State) (p : TxPath) : (afterChoice s).phyBusy p = s.phyBusy p := by
  cases p <;> simp
@[simp] theorem afterChoice_cap (s : State) (q : QueueId) : (afterChoice s).cap q = s.cap q := by
  cases q <;> simp
@[simp] theorem afterChoice_content (s : State) (q : QueueId) : (afterChoice s).content q = s.content q := by
  cases q <;> simp [content_def]

@[simp] theorem afterChoice_cons {m : Move} {ms : List Move} (h : s.sched = m :: ms) :
    afterChoice s = s.setSched ms := by simp [afterChoice, h]

@[simp] theorem nextMove_cons {m : Move} {ms : List Move} (h : s.sched = m :: ms) : nextMove s = m := by
  simp [nextMove, h]

theorem step_cons {m : Move} {ms : List Move} (h : s.sched = m :: ms) : step s = runMove m (s.setSched ms) := by
  simp [step, nextMove_cons h, afterChoice_cons h]

@[simp] theorem canDispatch_afterChoice (s : State) (e : EventSource) :
    canDispatch (afterChoice s) e = canDispatch s e := by
  simp [canDispatch, arbAllows]

/-! ## The cases of a step -/

/-- Every way a step can answer a next state (R194, R196, R197, R198, R200). -/
theorem step_cases (h : step s = .next t) :
    (nextMove s = .fg ∧ frame s.fg = none ∧ t = afterChoice s) ∨
    (nextMove s = .fg ∧ ∃ hd payload rest i, frame s.fg = some (hd, payload, rest) ∧
      decode hd payload = .command i ∧ exec i (acceptCommand hd payload rest (afterChoice s)) = .next t) ∨
    (nextMove s = .fg ∧ ∃ hd payload rest why, frame s.fg = some (hd, payload, rest) ∧
      decode hd payload = .illegal why ∧ t = answerIllegal (acceptCommand hd payload rest (afterChoice s))) ∨
    (∃ e d, nextMove s = .dispatch e d ∧ canDispatch s e = true ∧ t = dispatch e d (afterChoice s)) ∨
    (∃ e d, nextMove s = .dispatch e d ∧ canDispatch s e = false ∧ t = afterChoice s) ∨
    (∃ p, nextMove s = .complete p ∧ s.phyBusy p = true ∧ t = complete p (afterChoice s)) ∨
    (∃ p, nextMove s = .complete p ∧ s.phyBusy p = false ∧ t = afterChoice s) ∨
    (nextMove s = .arrive ∧ t = arrive (afterChoice s)) := by
  unfold step at h
  cases hm : nextMove s with
  | fg =>
    rw [hm] at h
    simp only [runMove, fgStep, afterChoice_fg] at h
    cases hf : frame s.fg with
    | none => rw [hf] at h; exact .inl ⟨rfl, rfl, by simpa using h.symm⟩
    | some r =>
      obtain ⟨hd, payload, rest⟩ := r
      rw [hf] at h
      cases hd' : decode hd payload with
      | command i =>
        simp only [hd'] at h
        exact .inr (.inl ⟨rfl, hd, payload, rest, i, rfl, hd', h⟩)
      | illegal why =>
        simp only [hd'] at h
        exact .inr (.inr (.inl ⟨rfl, hd, payload, rest, why, rfl, hd', by simpa using h.symm⟩))
  | dispatch e d =>
    rw [hm] at h
    simp only [runMove, canDispatch_afterChoice, Host.Outcome.next.injEq] at h
    cases hc : canDispatch s e with
    | true => exact .inr (.inr (.inr (.inl ⟨e, d, rfl, hc, by simpa [hc] using h.symm⟩)))
    | false => exact .inr (.inr (.inr (.inr (.inl ⟨e, d, rfl, hc, by simpa [hc] using h.symm⟩))))
  | complete p =>
    rw [hm] at h
    simp only [runMove, afterChoice_phyBusy, Host.Outcome.next.injEq] at h
    cases hc : s.phyBusy p with
    | true => exact .inr (.inr (.inr (.inr (.inr (.inl ⟨p, rfl, hc, by simpa [hc] using h.symm⟩)))))
    | false => exact .inr (.inr (.inr (.inr (.inr (.inr (.inl ⟨p, rfl, hc, by simpa [hc] using h.symm⟩))))))
  | arrive =>
    rw [hm] at h
    exact .inr (.inr (.inr (.inr (.inr (.inr (.inr ⟨rfl, by simpa [runMove] using h.symm⟩))))))

end Sys2Proof.Machine
end

