-- ==== Sys2Proof/Laws/Handlers.lean ====
section
/-! SUPPORT. What a handler and a command can do, said once: the equations of the handlers by their cases (R160, R162,
R164), their frames (R168), and that commands and dispatches keep the parameters and the queue invariant. -/

namespace Sys2Proof.Machine

variable {s t : State}

/-! ## The send halves -/

theorem busSend_of_empty (h : s.btx.len = 0#16) : busSend s = s.setBusStatus .idle := by
  simp [busSend, qPop_of_empty h]

theorem busSend_of_some (h : s.btx.len ≠ 0#16) :
    busSend s = (((s.setQueue .btx (qPop s.params.cBtx s.btx).2.2).emit
      (.write .bus (qPop s.params.cBtx s.btx).2.1)).setPhyBusy .bus true).setBusStatus .busy := by
  simp [busSend, qPop_rc_ok_iff.mpr h, pathOf]

theorem utxSend_of_empty (err : Option UartStatus) (h : s.utx.len = 0#16) :
    utxSend err s = s.setUartStatus (err.getD .txIdle) := by
  simp [utxSend, qPop_of_empty h]

theorem utxSend_of_some (err : Option UartStatus) (h : s.utx.len ≠ 0#16) :
    utxSend err s = (((s.setQueue .utx (qPop s.params.cUtx s.utx).2.2).emit
      (.write .uart (qPop s.params.cUtx s.utx).2.1)).setPhyBusy .utx true).setUartStatus (err.getD .txBusy) := by
  simp [utxSend, qPop_rc_ok_iff.mpr h, pathOf]

/-! ## The handlers by their cases -/

theorem busHandler_of_collision {d : Draws} (h : d.collision = true) : busHandler d s = s.setBusStatus .collision := by
  simp [busHandler, h]

theorem busHandler_of_busy_full {d : Draws} (h : d.collision = false) (hb : s.busStatus = .busy)
    (hf : s.brx.len.toNat = s.params.cBrx.val) : busHandler d s = s.setBusStatus .bufferOverflow := by
  simp [busHandler, h, hb, qPush_of_full d.busRx hf]

theorem busHandler_of_busy_room {d : Draws} (h : d.collision = false) (hb : s.busStatus = .busy)
    (hf : s.brx.len.toNat ≠ s.params.cBrx.val) :
    busHandler d s = busSend (s.setQueue .brx (qPush s.params.cBrx s.brx d.busRx).2) := by
  simp [busHandler, h, hb, qPush_of_room d.busRx hf]

theorem busHandler_of_not_busy {d : Draws} (h : d.collision = false) (hb : s.busStatus ≠ .busy) :
    busHandler d s = busSend s := by
  simp [busHandler, h, hb]

theorem urxHandler_of_ok_full {d : Draws} (h1 : d.frameError = false) (h2 : d.dataOverrun = false)
    (h3 : d.parityError = false) (hf : s.urx.len.toNat = s.params.cUrx.val) :
    urxHandler d s = s.setUartStatus .overflow := by
  simp [urxHandler, h1, h2, h3, qPush_of_full d.uartRx hf]

theorem urxHandler_of_ok_room {d : Draws} (h1 : d.frameError = false) (h2 : d.dataOverrun = false)
    (h3 : d.parityError = false) (hf : s.urx.len.toNat ≠ s.params.cUrx.val) :
    urxHandler d s = s.setQueue .urx (qPush s.params.cUrx s.urx d.uartRx).2 := by
  simp [urxHandler, h1, h2, h3, qPush_of_room d.uartRx hf]

/-- Every way the BUS_EV handler can end. -/
theorem busHandler_cases (d : Draws) (s : State) :
    busHandler d s = s.setBusStatus .collision ∨ busHandler d s = s.setBusStatus .bufferOverflow ∨
    busHandler d s = busSend (s.setQueue .brx (qPush s.params.cBrx s.brx d.busRx).2) ∨ busHandler d s = busSend s := by
  unfold busHandler
  repeat' split
  all_goals simp

/-- Every way the UTX_EV handler can end. -/
theorem utxHandler_cases (d : Draws) (s : State) :
    (∃ err, utxHandler d s = s.setUartStatus err ∧ err ≠ .txIdle) ∨
    ∃ err, utxHandler d s = utxSend err s ∧ err ≠ some .txIdle := by
  unfold utxHandler
  cases he : utxError d with
  | none => exact .inr ⟨none, rfl, by simp⟩
  | some e =>
    have hne : e ≠ .txIdle := by
      rintro rfl
      unfold utxError at he
      repeat' split at he
      all_goals simp at he
    cases hp : s.params.uartTxErrStops with
    | true => exact .inl ⟨e, by simp, hne⟩
    | false => exact .inr ⟨some e, by simp, by simpa using hne⟩

/-- Every way the URX_EV handler can end. -/
theorem urxHandler_cases (d : Draws) (s : State) :
    (∃ v, urxHandler d s = s.setUartStatus v ∧ v ≠ .txIdle) ∨
    urxHandler d s = s.setQueue .urx (qPush s.params.cUrx s.urx d.uartRx).2 := by
  unfold urxHandler
  repeat' split
  all_goals first
    | exact .inl ⟨_, rfl, by simp⟩
    | simp

/-! ## The frames of the handlers -/

/-- The BUS send half leaves everything but BTX, the status, the busy latch and the observation. -/
theorem busSend_keeps (s : State) :
    KeepsUart s (busSend s) ∧ KeepsPort s (busSend s) ∧ (busSend s).brx = s.brx ∧
      (busSend s).pendBus = s.pendBus ∧ (busSend s).sched = s.sched ∧ (busSend s).tick = s.tick := by
  by_cases h : s.btx.len = 0#16
  · rw [busSend_of_empty h]; simp [keepsUart_iff, keepsPort_iff]
  · rw [busSend_of_some h]; simp [keepsUart_iff, keepsPort_iff]

/-- The UART send half leaves everything but UTX, the status, the busy latch and the observation. -/
theorem utxSend_keeps (err : Option UartStatus) (s : State) :
    KeepsBus s (utxSend err s) ∧ KeepsPort s (utxSend err s) ∧ (utxSend err s).urx = s.urx ∧
      (utxSend err s).pendUtx = s.pendUtx ∧ (utxSend err s).pendUrx = s.pendUrx ∧
      (utxSend err s).sched = s.sched ∧ (utxSend err s).tick = s.tick := by
  by_cases h : s.utx.len = 0#16
  · rw [utxSend_of_empty err h]; simp [keepsBus_iff, keepsPort_iff]
  · rw [utxSend_of_some err h]; simp [keepsBus_iff, keepsPort_iff]

/-- The BUS_EV handler leaves the UART channel, the port, its latch and the inputs. -/
theorem busHandler_keeps (d : Draws) (s : State) :
    KeepsUart s (busHandler d s) ∧ KeepsPort s (busHandler d s) ∧ (busHandler d s).pendBus = s.pendBus ∧
      (busHandler d s).sched = s.sched ∧ (busHandler d s).tick = s.tick := by
  rcases busHandler_cases d s with h | h | h | h <;> rw [h]
  · simp [keepsUart_iff, keepsPort_iff]
  · simp [keepsUart_iff, keepsPort_iff]
  · have := busSend_keeps (s.setQueue .brx (qPush s.params.cBrx s.brx d.busRx).2)
    simp only [keepsUart_iff, keepsPort_iff] at this ⊢
    simpa using ⟨this.1, this.2.1, this.2.2.2⟩
  · have := busSend_keeps s
    exact ⟨this.1, this.2.1, this.2.2.2⟩

/-- The UTX_EV handler leaves the BUS channel, URX, the port, the UART latches and the inputs. -/
theorem utxHandler_keeps (d : Draws) (s : State) :
    KeepsBus s (utxHandler d s) ∧ KeepsPort s (utxHandler d s) ∧ (utxHandler d s).urx = s.urx ∧
      (utxHandler d s).pendUtx = s.pendUtx ∧ (utxHandler d s).pendUrx = s.pendUrx ∧
      (utxHandler d s).sched = s.sched ∧ (utxHandler d s).tick = s.tick := by
  rcases utxHandler_cases d s with ⟨err, h, -⟩ | ⟨err, h, -⟩ <;> rw [h]
  · simp [keepsBus_iff, keepsPort_iff]
  · exact utxSend_keeps err s

/-- The URX_EV handler leaves everything but URX and the status. -/
theorem urxHandler_keeps (d : Draws) (s : State) :
    KeepsBus s (urxHandler d s) ∧ KeepsPort s (urxHandler d s) ∧ (urxHandler d s).utx = s.utx ∧
      (urxHandler d s).phyBusyUtx = s.phyBusyUtx ∧ (urxHandler d s).pendUtx = s.pendUtx ∧
      (urxHandler d s).pendUrx = s.pendUrx ∧ (urxHandler d s).sched = s.sched ∧ (urxHandler d s).tick = s.tick ∧
      (urxHandler d s).out = s.out := by
  rcases urxHandler_cases d s with ⟨v, h, -⟩ | h <;> rw [h] <;> simp [keepsBus_iff, keepsPort_iff]

/-! ## The dispatch of each source -/

theorem dispatch_busEv (d : Draws) : dispatch .busEv d s = busHandler d (s.setPend .busEv false) := rfl
theorem dispatch_utxEv (d : Draws) : dispatch .utxEv d s = utxHandler d (s.setPend .utxEv false) := rfl
theorem dispatch_urxEv (d : Draws) : dispatch .urxEv d s = urxHandler d (s.setPend .urxEv false) := rfl

/-- An enabled dispatch is the step, when the list of choices names it. -/
theorem step_of_dispatches {e : EventSource} {d : Draws} {ms : List Move} (h : Dispatches s e d ms) :
    step s = .next (dispatch e d (s.setSched ms)) := by
  have hc : canDispatch s e = true := (canDispatch_iff s e).mpr ⟨h.ie, h.pend, h.allowed⟩
  have := canDispatch_afterChoice s e
  rw [afterChoice_cons h.sched, hc] at this
  rw [step_cons h.sched]
  simp [runMove, this]

/-! ## The invariant and the parameters -/

theorem busSend_inv (hi : s.Inv) : (busSend s).Inv := by
  by_cases h : s.btx.len = 0#16
  · rw [busSend_of_empty h]; exact inv_of_same_queues hi (by simp) (by simp)
  · rw [busSend_of_some h]
    exact inv_of_same_queues (inv_setQueue hi .btx (qPop_wf (inv_iff.mp hi .btx))) (by simp) (by simp)

theorem utxSend_inv (err : Option UartStatus) (hi : s.Inv) : (utxSend err s).Inv := by
  by_cases h : s.utx.len = 0#16
  · rw [utxSend_of_empty err h]; exact inv_of_same_queues hi (by simp) (by simp)
  · rw [utxSend_of_some err h]
    exact inv_of_same_queues (inv_setQueue hi .utx (qPop_wf (inv_iff.mp hi .utx))) (by simp) (by simp)

/-- Every handler keeps the queue invariant. -/
theorem dispatch_inv (e : EventSource) (d : Draws) (hi : s.Inv) : (dispatch e d s).Inv := by
  have hi' : (s.setPend e false).Inv := inv_of_same_queues hi (by simp) (by simp)
  cases e with
  | busEv =>
    rw [dispatch_busEv]
    rcases busHandler_cases d (s.setPend .busEv false) with h | h | h | h <;> rw [h]
    · exact inv_of_same_queues hi' (by simp) (by simp)
    · exact inv_of_same_queues hi' (by simp) (by simp)
    · exact busSend_inv (inv_setQueue hi' .brx (qPush_wf (inv_iff.mp hi' .brx) _))
    · exact busSend_inv hi'
  | utxEv =>
    rw [dispatch_utxEv]
    rcases utxHandler_cases d (s.setPend .utxEv false) with ⟨err, h, -⟩ | ⟨err, h, -⟩ <;> rw [h]
    · exact inv_of_same_queues hi' (by simp) (by simp)
    · exact utxSend_inv err hi'
  | urxEv =>
    rw [dispatch_urxEv]
    rcases urxHandler_cases d (s.setPend .urxEv false) with ⟨v, h, -⟩ | h <;> rw [h]
    · exact inv_of_same_queues hi' (by simp) (by simp)
    · exact inv_setQueue hi' .urx (qPush_wf (inv_iff.mp hi' .urx) _)

/-- A dispatch leaves the parameters, the port and IE. -/
theorem dispatch_keepsPort (e : EventSource) (d : Draws) (s : State) : KeepsPort s (dispatch e d s) := by
  cases e with
  | busEv => rw [dispatch_busEv]; simpa [keepsPort_iff] using (busHandler_keeps d (s.setPend .busEv false)).2.1
  | utxEv => rw [dispatch_utxEv]; simpa [keepsPort_iff] using (utxHandler_keeps d (s.setPend .utxEv false)).2.1
  | urxEv => rw [dispatch_urxEv]; simpa [keepsPort_iff] using (urxHandler_keeps d (s.setPend .urxEv false)).2.1

theorem transmitEffect_params (ch : Channel) (b : Byte) : (transmitEffect ch b s).params = s.params := by
  by_cases h : (s.queue (txq ch)).len.toNat = (s.cap (txq ch)).val
  · rw [transmitEffect_of_full ch b h]; cases ch <;> rfl
  · rw [transmitEffect_of_room ch b h]; split <;> simp

theorem initEffect_params (ch : Channel) : (initEffect ch s).params = s.params := by
  cases ch <;> simp [initEffect, clearPend]

/-- No command changes a parameter. -/
theorem exec_params {i : Instr} (h : exec i s = .next t) : t.params = s.params := by
  cases i <;> simp at h <;> subst h <;> simp [transmitEffect_params, initEffect_params]

theorem transmitEffect_inv (ch : Channel) (b : Byte) (hi : s.Inv) : (transmitEffect ch b s).Inv := by
  by_cases h : (s.queue (txq ch)).len.toNat = (s.cap (txq ch)).val
  · rw [transmitEffect_of_full ch b h]
    cases ch <;> exact inv_of_same_queues hi (by simp) (by simp)
  · rw [transmitEffect_of_room ch b h]
    have h2 := inv_setQueue hi (txq ch) (qPush_wf (inv_iff.mp hi (txq ch)) b)
    split
    · exact inv_of_same_queues h2 (by simp) (by simp)
    · exact h2

theorem initEffect_inv (ch : Channel) (hi : s.Inv) : (initEffect ch s).Inv := by
  have h1 := inv_setQueue hi (txq ch) (qPopAll_wf (inv_iff.mp hi (txq ch)))
  have h2 := inv_setQueue h1 (rxq ch) (q := qPopAll (s.queue (rxq ch)))
    (by simpa using qPopAll_wf (inv_iff.mp hi (rxq ch)))
  cases ch <;> exact inv_of_same_queues h2 (by simp [initEffect, clearPend]) (by simp [initEffect, clearPend])

/-- Every command keeps the queue invariant. -/
theorem exec_inv {i : Instr} (hi : s.Inv) (h : exec i s = .next t) : t.Inv := by
  have hw := inv_iff.mp hi
  have done : ∀ {u : State} (o : Output), u.Inv → (u.emit o).Inv :=
    fun o hu => inv_of_same_queues hu (by simp) (by simp)
  cases i <;> simp at h <;> subst h
  case push q b => exact done _ (inv_setQueue hi q (qPush_wf (hw q) b))
  case pushMany q bs => exact done _ (inv_setQueue hi q (qPushMany_wf (hw q) bs))
  case pop q => exact done _ (inv_setQueue hi q (qPop_wf (hw q)))
  case popAll q => exact done _ (inv_setQueue hi q (qPopAll_wf (hw q)))
  case transmit ch b => exact done _ (transmitEffect_inv ch b hi)
  case init ch => exact done _ (initEffect_inv ch hi)
  case ieswap v => exact done _ (inv_of_same_queues hi (by simp) (by simp))
  all_goals exact done _ hi

end Sys2Proof.Machine
end

