-- ==== Sys2Proof/Laws/PerInstr.lean ====
section
/-! SUPPORT. Facts about every command as syntax, one lemma per constructor. -/

namespace Sys2Proof.Laws.FramedEncoding

/-- The words of a well-formed command are a header and exactly its framed payload, whatever follows them (R80). -/
def Statement (i : Instr) : Prop :=
  i.wellFormed = true → ∃ h payload, encode i = h :: payload ∧ payload.length = payloadLength h ∧
    ∀ rest, frame (encode i ++ rest) = some (h, payload, rest)

/-- A one-word command frames itself: only PUSH_MANY has a payload. -/
theorem oneWord {i : Instr} (opc : BitVec 4) (ch dir : Bool) (imm : Half) (ho : opc ≠ 0x2#4)
    (h : encode i = [mkHeader opc ch dir imm]) : Statement i := by
  intro _
  have hl : ([] : List Word).length = payloadLength (mkHeader opc ch dir imm) := by simp [payloadLength, ho]
  exact ⟨_, [], h, hl, fun rest => by rw [h]; exact frame_cons_append _ [] rest hl⟩

theorem push (q : QueueId) (b : Byte) : Statement (.push q b) := oneWord _ _ _ _ (by decide) rfl

theorem pushMany (q : QueueId) (bs : List Byte) : Statement (.pushMany q bs) := by
  intro hw
  have hn : bs.length ≤ 65535 := of_decide_eq_true hw
  have hl : (bs.map payloadWord).length =
      payloadLength (mkHeader 0x2#4 q.ch q.dir (BitVec.ofNat 16 bs.length)) := by
    simp [payloadLength]
    omega
  exact ⟨_, _, rfl, hl, fun rest => frame_cons_append _ _ rest hl⟩

theorem pop (q : QueueId) : Statement (.pop q) := oneWord _ _ _ _ (by decide) rfl
theorem popAll (q : QueueId) : Statement (.popAll q) := oneWord _ _ _ _ (by decide) rfl
theorem len (q : QueueId) : Statement (.len q) := oneWord _ _ _ _ (by decide) rfl
theorem frontPeek (q : QueueId) : Statement (.frontPeek q) := oneWord _ _ _ _ (by decide) rfl
theorem backPeek (q : QueueId) : Statement (.backPeek q) := oneWord _ _ _ _ (by decide) rfl
theorem isEmpty (q : QueueId) : Statement (.isEmpty q) := oneWord _ _ _ _ (by decide) rfl
theorem isFull (q : QueueId) : Statement (.isFull q) := oneWord _ _ _ _ (by decide) rfl
theorem transmit (ch : Channel) (b : Byte) : Statement (.transmit ch b) := oneWord _ _ _ _ (by decide) rfl
theorem readStatus (ch : Channel) : Statement (.readStatus ch) := oneWord _ _ _ _ (by decide) rfl
theorem init (ch : Channel) : Statement (.init ch) := oneWord _ _ _ _ (by decide) rfl
theorem ieswap (v : Bool) : Statement (.ieswap v) := oneWord _ _ _ _ (by decide) rfl

end Sys2Proof.Laws.FramedEncoding
end

