-- ==== Sys2Proof/Tests/Slice0.lean ====
section
/-! SUPPORT. Tests, and a witness for the hypotheses of every statement that has hypotheses. The words, responses and
states a test expects are those of spec/30_encoding.md (R74, R81) and spec/95_test_vectors.md; each name or comment gives
the vector. A witness (`wit_…`) shows a concrete state and operands that meet the hypotheses of the statement it names. -/

namespace Sys2Proof.Tests

open Sys2Proof Sys2Proof.Machine

/-! ## Builders -/

/-- A queue of capacity 4 or less with this content, placed from cell 0; unused cells hold 0xEE. -/
def queueOf4 (xs : List Byte) : Queue :=
  { buf := (xs ++ List.replicate 4 0xEE#8).take 4, front := 0#16, len := BitVec.ofNat 16 xs.length }

/-- A queue given by its front, its length and its cells. -/
def queueAt (front len : Nat) (cells : List Byte) : Queue :=
  { buf := cells, front := BitVec.ofNat 16 front, len := BitVec.ofNat 16 len }

/-- The next state of an outcome. -/
def nextOf : Host.Outcome State Fault Refusal → Option State
  | .next t => some t
  | .fault _ => none
  | .refused _ => none

/-- One FG step on these port words. -/
def runWords (ws : List Word) (s : State) : Option State := nextOf (step { s with fg := ws, sched := [.fg] })

/-- One enabled dispatch, with IE 1 and the source's latch set before it. -/
def fire (e : EventSource) (d : Draws) (s : State) : Option State :=
  nextOf (step { (s.setPend e true) with ie := true, sched := [.dispatch e d] })

/-- The response words of the observation, oldest first. -/
def responses : List Output → List Word
  | [] => []
  | .response w :: os => w :: responses os
  | .command _ _ :: os => responses os
  | .write _ _ :: os => responses os

/-- Draws with no error flag and these received bytes. -/
def okDraws (busRx uartRx : Byte) : Draws := ⟨busRx, uartRx, false, false, false, false⟩

/-- The reset state with other queue contents. -/
def withQueues (btx brx utx urx : List Byte) : State :=
  { State.reset with btx := queueOf4 btx, brx := queueOf4 brx, utx := queueOf4 utx, urx := queueOf4 urx }

/-! ## Well-formedness (R73, R81) -/

theorem test_wellFormed_refuses_a_list_of_65536 :
    (Instr.pushMany .btx (List.replicate 65536 0#8)).wellFormed = false := by
  simp only [Instr.wellFormed, List.length_replicate]; decide
theorem test_wellFormed_accepts_a_list_of_65535 :
    (Instr.pushMany .btx (List.replicate 65535 0#8)).wellFormed = true := by
  simp only [Instr.wellFormed, List.length_replicate]; decide
theorem test_capacity_refuses_0_and_65536 :
    (Capacity.ofNat? 0).isNone ∧ (Capacity.ofNat? 65536).isNone ∧ (Capacity.ofNat? 1).isSome ∧
      (Capacity.ofNat? 65535).isSome := by decide

/-! ## Decoding: a word of every command, written out from the tables of R74 -/

theorem test_decode_push : decode 0x1C0000FF#32 [] = .command (.push .urx 0xFF#8) := by decide -- DC7
theorem test_decode_pushMany :
    decode 0x28000003#32 [0x31#32, 0x32#32, 0x33#32] = .command (.pushMany .utx [0x31#8, 0x32#8, 0x33#8]) := by
  decide -- L1-6
theorem test_decode_pushMany_none : decode 0x2C000000#32 [] = .command (.pushMany .urx []) := by decide -- DC19
theorem test_decode_pop : decode 0x34000000#32 [] = .command (.pop .brx) := by decide
theorem test_decode_popAll : decode 0x44000000#32 [] = .command (.popAll .brx) := by decide
theorem test_decode_len : decode 0x58000000#32 [] = .command (.len .utx) := by decide
theorem test_decode_frontPeek : decode 0x64000000#32 [] = .command (.frontPeek .brx) := by decide
theorem test_decode_backPeek : decode 0x7C000000#32 [] = .command (.backPeek .urx) := by decide
theorem test_decode_isEmpty : decode 0x80000000#32 [] = .command (.isEmpty .btx) := by decide
theorem test_decode_isFull : decode 0x9C000000#32 [] = .command (.isFull .urx) := by decide -- DC9
theorem test_decode_transmit : decode 0xA8000041#32 [] = .command (.transmit .uart 0x41#8) := by decide -- T7
theorem test_decode_readStatus : decode 0xB8000000#32 [] = .command (.readStatus .uart) := by decide -- T10
theorem test_decode_init : decode 0xC8000000#32 [] = .command (.init .uart) := by decide -- T13
theorem test_decode_ieswap : decode 0xD0000001#32 [] = .command (.ieswap true) := by decide -- DC21

/-- DC1 to DC6: reserved opcodes, RSV, the high byte of IMM. -/
theorem test_decode_illegal_1 :
    decode 0x00000000#32 [] = .illegal .reservedOpcode ∧ decode 0xE0000000#32 [] = .illegal .reservedOpcode ∧
    decode 0xFFFFFFFF#32 [] = .illegal .reservedOpcode ∧ decode 0x10010007#32 [] = .illegal .rsvNotZero ∧
    decode 0x13FF0000#32 [] = .illegal .rsvNotZero ∧ decode 0x10000107#32 [] = .illegal .immNotZero := by decide

/-- DC8, DC10 to DC16: IMM of an operandless command, DIR of a channel command, the selector bits of IESWAP. -/
theorem test_decode_illegal_2 :
    decode 0x30000001#32 [] = .illegal .immNotZero ∧ decode 0xA4000041#32 [] = .illegal .dirNotZero ∧
    decode 0xAC000041#32 [] = .illegal .dirNotZero ∧ decode 0xB4000000#32 [] = .illegal .dirNotZero ∧
    decode 0xC4000000#32 [] = .illegal .dirNotZero ∧ decode 0xD0000002#32 [] = .illegal .immNotZero ∧
    decode 0xD8000001#32 [] = .illegal .enableSelectNotZero ∧
    decode 0xD4000000#32 [] = .illegal .enableSelectNotZero := by decide

/-- DC17: a payload word with a high bit is illegal, and both payload words are consumed. -/
theorem test_decode_illegal_payload :
    decodeStream [0x20000002#32, 0x107#32, 0x08#32, 0x30000000#32] =
      some (.illegal .payloadHighNotZero, [0x30000000#32]) := by decide

/-- An illegal PUSH_MANY header still frames its payload (R80): `0x20010002` consumes two words. -/
theorem test_decode_illegal_header_frames :
    decodeStream [0x20010002#32, 1#32, 2#32, 0x30000000#32] = some (.illegal .rsvNotZero, [0x30000000#32]) := by
  decide

theorem test_decode_incomplete : decodeStream [0x20000002#32, 1#32] = none := by decide
theorem test_decodePair_refuses_wrong_length : decodePair 0x20000002#32 [1#32] = none := by decide
theorem test_decodeTableWord : decodeTableWord 32 0xA8000041 = some (.transmit .uart 0x41#8) := by decide

/-- The next step runs the stored word, after reset: TRANSMIT uart, 0x41 (T7). -/
theorem test_withFetchWord :
    (nextOf (step (State.reset.withFetchWord 32 0xA8000041))).map (fun t => (t.pendUtx, responses t.out)) =
      some (true, [0#32]) := by decide

/-! ## Assembler (R81, R82) -/

theorem test_asm_push : assembleText "PUSH bus.tx, 20" = some [0x10000014#32] := by decide -- L1-9
theorem test_asm_pushMany : assembleText "PUSH_MANY uart.tx, [0x31, 0x32, 0x33]" =
    some [0x28000003#32, 0x31#32, 0x32#32, 0x33#32] := by decide -- L1-6
theorem test_asm_rejects :
    assembleText "PUSH bus.tx, 256" = none ∧ assembleText "IESWAP 2" = none ∧ assembleText "POP bus" = none := by
  decide
theorem test_asm_pseudo :
    assembleText "DI" = some [0xD0000000#32] ∧ assembleText "RESTORE 1" = some [0xD0000001#32] ∧
    assembleText "RECV uart" = some [0x3C000000#32] ∧ assembleText "PEEK bus.rx" = some [0x64000000#32] := by decide

/-! ## FIFO commands -/

/-- L1-2: a full queue is left as it is. -/
theorem test_push_full :
    (runWords [0x1C000099#32] { State.reset with urx := queueAt 2 4 [7#8, 8#8, 5#8, 6#8] }).map
      (fun t => (t.urx, responses t.out)) =
    some (queueAt 2 4 [7#8, 8#8, 5#8, 6#8], [0x10000000#32]) := by decide

/-- L1-8: the byte wraps to cell (1 + 3) mod 4 = 0. -/
theorem test_push_wraps :
    (runWords [0x10000005#32] { State.reset with btx := queueAt 1 3 [1#8, 2#8, 3#8, 4#8] }).map
      (fun t => (t.btx, responses t.out)) =
    some (queueAt 1 4 [5#8, 2#8, 3#8, 4#8], [0#32]) := by decide

/-- FQ15: three bytes from cell (3 + 1) mod 4. -/
theorem test_pushMany_wraps :
    (runWords [0x2C000003#32, 0x22#32, 0x33#32, 0x44#32]
      { State.reset with urx := queueAt 3 1 [0x10#8, 0x10#8, 0x10#8, 0x11#8] }).map
        (fun t => (t.urx, responses t.out)) =
    some (queueAt 3 4 [0x22#8, 0x33#8, 0x44#8, 0x11#8], [0#32]) := by decide

/-- L1-3, L1-4: TOOMANY on a queue that is full, FULL where n fits the capacity only. -/
theorem test_pushMany_rejects :
    (runWords [0x20000005#32, 1#32, 2#32, 3#32, 4#32, 5#32] (withQueues [1#8, 2#8, 3#8, 4#8] [] [] [])).map
      (fun t => responses t.out) = some [0x30000000#32] ∧
    (runWords [0x20000002#32, 8#32, 9#32] (withQueues [1#8, 2#8, 3#8] [] [] [])).map
      (fun t => (t.btx, responses t.out)) = some (queueOf4 [1#8, 2#8, 3#8], [0x10000000#32]) := by decide

/-- FQ18: the front wraps from 3 to 0. -/
theorem test_pop_wraps :
    (runWords [0x3C000000#32] { State.reset with urx := queueAt 3 4 [0x22#8, 0x33#8, 0x44#8, 0x11#8] }).map
      (fun t => (t.urx, responses t.out)) =
    some (queueAt 0 3 [0x22#8, 0x33#8, 0x44#8, 0x11#8], [0x11#32]) := by decide

/-- FQ9: EMPTY. -/
theorem test_pop_empty :
    (runWords [0x30000000#32] State.reset).map (fun t => responses t.out) = some [0x20000000#32] := by decide

/-- L1-5: POP_ALL resets front and length and keeps the cells. -/
theorem test_popAll :
    (runWords [0x44000000#32] { State.reset with brx := queueAt 3 2 [2#8, 0#8, 0#8, 1#8] }).map
      (fun t => (t.brx, responses t.out)) = some (queueAt 0 0 [2#8, 0#8, 0#8, 1#8], [0#32]) := by decide

theorem test_len : -- L1-7
    (runWords [0x54000000#32] (withQueues [] [4#8, 5#8, 6#8] [] [])).map (fun t => responses t.out) =
      some [3#32] := by decide

theorem test_peeks : -- L1-7, FQ17
    (runWords [0x64000000#32] (withQueues [] [4#8, 5#8, 6#8] [] [])).map (fun t => responses t.out) = some [4#32] ∧
    (runWords [0x7C000000#32] { State.reset with urx := queueAt 3 4 [0x22#8, 0x33#8, 0x44#8, 0x11#8] }).map
      (fun t => responses t.out) = some [0x44#32] := by decide

theorem test_peeks_empty : -- FQ10, FQ11
    (runWords [0x60000000#32] State.reset).map (fun t => responses t.out) = some [0x20000000#32] ∧
    (runWords [0x70000000#32] State.reset).map (fun t => responses t.out) = some [0x20000000#32] := by decide

theorem test_flags : -- FQ24, FQ25
    (runWords [0x9C000000#32] (withQueues [] [] [] [1#8, 2#8, 3#8, 4#8])).map (fun t => responses t.out) =
      some [1#32] ∧
    (runWords [0x8C000000#32] (withQueues [] [] [] [1#8, 2#8, 3#8, 4#8])).map (fun t => responses t.out) =
      some [0#32] := by decide

/-! ## Channel commands -/

theorem test_transmit_arms : -- T1
    (runWords [0xA0000055#32] State.reset).map
      (fun t => (t.content .btx, t.pendBus, t.pendUtx, t.busStatus, responses t.out)) =
    some ([0x55#8], true, false, .idle, [0#32]) := by decide

theorem test_transmit_full_overflows : -- T4
    (runWords [0xA0000005#32] (withQueues [1#8, 2#8, 3#8, 4#8] [] [] [])).map
      (fun t => (t.content .btx, t.pendBus, t.busStatus, responses t.out)) =
    some ([1#8, 2#8, 3#8, 4#8], false, .bufferOverflow, [0#32]) := by decide

theorem test_readStatus : -- T10, T11
    (runWords [0xB8000000#32] { State.reset with uartStatus := .dataOverrun }).map
      (fun t => (t.uartStatus, responses t.out)) = some (.dataOverrun, [4#32]) ∧
    (runWords [0xB0000000#32] { State.reset with busStatus := .bufferOverflow }).map
      (fun t => (t.busStatus, responses t.out)) = some (.bufferOverflow, [2#32]) := by decide

theorem test_init_bus : -- T12
    (runWords [0xC0000000#32] { withQueues [1#8, 2#8] [9#8] [] [] with
        busStatus := .collision, pendBus := true, phyBusyBus := true, ie := true, uartStatus := .parityError }).map
      (fun t => (t.content .btx ++ t.content .brx, t.busStatus, t.pendBus, t.phyBusyBus, t.ie, t.uartStatus)) =
    some ([], .idle, false, true, true, .parityError) := by decide

theorem test_init_uart : -- T13
    (runWords [0xC8000000#32] { withQueues [] [] [3#8] [4#8, 5#8] with
        uartStatus := .overflow, pendUtx := true, pendUrx := true }).map
      (fun t => (t.content .utx, t.content .urx, t.uartStatus, t.pendUtx, t.pendUrx)) =
    some ([], [], .txIdle, false, false) := by decide

theorem test_ieswap : -- T15, T17
    (runWords [0xD0000001#32] State.reset).map (fun t => (t.ie, responses t.out)) = some (true, [0#32]) ∧
    (runWords [0xD0000000#32] { State.reset with ie := true }).map (fun t => (t.ie, responses t.out)) =
      some (false, [1#32]) := by decide

theorem test_illegal_changes_nothing : -- DC14
    (runWords [0xD0000002#32] { State.reset with ie := true }).map (fun t => (t.ie, responses t.out)) =
      some (true, [0x40000000#32]) := by decide

/-! ## Handlers -/

/-- The state of a BUS_EV vector. -/
def busStart (st : BusStatus) (btx brx : List Byte) : State := { withQueues btx brx [] [] with busStatus := st }

/-- The columns after a BUS_EV vector. -/
structure BusColumns where
  status : BusStatus
  btx : List Byte
  brx : List Byte
  pend : Bool
  phyBusy : Bool
  out : List Output
deriving DecidableEq, Repr

/-- The columns of a state. -/
def busEnd (t : State) : BusColumns :=
  ⟨t.busStatus, t.content .btx, t.content .brx, t.pendBus, t.phyBusyBus, t.out⟩

theorem test_HB1_HB3 :
    (fire .busEv { okDraws 0#8 0#8 with collision := true } (busStart .busy [1#8, 2#8] [])).map busEnd =
      some ⟨.collision, [1#8, 2#8], [], false, false, []⟩ ∧
    (fire .busEv (okDraws 9#8 0#8) (busStart .busy [1#8] [5#8, 6#8, 7#8, 8#8])).map busEnd =
      some ⟨.bufferOverflow, [1#8], [5#8, 6#8, 7#8, 8#8], false, false, []⟩ := by decide

theorem test_HB4_HB5 :
    (fire .busEv (okDraws 9#8 0#8) (busStart .busy [1#8] [5#8])).map busEnd =
      some ⟨.busy, [], [5#8, 9#8], false, true, [.write .bus 1#8]⟩ ∧
    (fire .busEv (okDraws 9#8 0#8) (busStart .busy [] [5#8])).map busEnd =
      some ⟨.idle, [], [5#8, 9#8], false, false, []⟩ := by decide

theorem test_HB8_HB9 :
    (fire .busEv (okDraws 9#8 0#8) (busStart .bufferOverflow [3#8] [])).map busEnd =
      some ⟨.busy, [], [], false, true, [.write .bus 3#8]⟩ ∧
    (fire .busEv (okDraws 9#8 0#8) (busStart .collision [] [])).map busEnd =
      some ⟨.idle, [], [], false, false, []⟩ := by decide

/-- The state of a UART vector. -/
def uartStart (st : UartStatus) (stops : Bool) (utx urx : List Byte) : State :=
  { withQueues [] [] utx urx with uartStatus := st, params := { Params.default with uartTxErrStops := stops } }

/-- The columns after a UART vector. -/
structure UartColumns where
  status : UartStatus
  utx : List Byte
  urx : List Byte
  out : List Output
deriving DecidableEq, Repr

/-- The columns of a state. -/
def uartEnd (t : State) : UartColumns := ⟨t.uartStatus, t.content .utx, t.content .urx, t.out⟩

/-- Draws with these UART error flags: frame, overrun, parity. -/
def errDraws (fe dor pe : Bool) : Draws := ⟨0#8, 0x64#8, false, fe, pe, dor⟩

theorem test_X3_X6 :
    (fire .utxEv (errDraws false false false) (uartStart .txIdle true [0x42#8] [])).map uartEnd =
      some ⟨.txBusy, [], [], [.write .uart 0x42#8]⟩ ∧
    (fire .utxEv (errDraws true false true) (uartStart .txBusy true [0x41#8] [])).map uartEnd =
      some ⟨.frameError, [0x41#8], [], []⟩ := by decide

theorem test_X8_X9_X10 :
    (fire .utxEv (errDraws false false true) (uartStart .txBusy false [] [])).map uartEnd =
      some ⟨.parityError, [], [], []⟩ ∧
    (fire .utxEv (errDraws true false true) (uartStart .txBusy false [0x41#8] [])).map uartEnd =
      some ⟨.frameError, [], [], [.write .uart 0x41#8]⟩ ∧
    (fire .utxEv (errDraws false false false) (uartStart .dataOverrun true [] [])).map uartEnd =
      some ⟨.txIdle, [], [], []⟩ := by decide

theorem test_Y7_Y8_Y9 :
    (fire .urxEv (errDraws true true true) (uartStart .txBusy true [] [])).map uartEnd =
      some ⟨.frameError, [], [], []⟩ ∧
    (fire .urxEv (errDraws false true true) (uartStart .txBusy true [] [])).map uartEnd =
      some ⟨.dataOverrun, [], [], []⟩ ∧
    (fire .urxEv (errDraws false false false) (uartStart .parityError true [] [])).map uartEnd =
      some ⟨.parityError, [], [0x64#8], []⟩ := by decide

theorem test_Y3 : -- the queue is full
    (fire .urxEv (errDraws false false false) (uartStart .txIdle true [] [1#8, 2#8, 3#8, 4#8])).map uartEnd =
      some ⟨.overflow, [], [1#8, 2#8, 3#8, 4#8], []⟩ := by decide

/-! ## Arbiter and peripheral steps -/

/-- The priority list (URX_EV, BUS_EV, UTX_EV) of S7. -/
def orderS7 : PriorityList := ⟨[.urxEv, .busEv, .utxEv], by decide⟩

/-- The state of S6 and S7: IE 1, BUS_EV and URX_EV pending. -/
def stateS6 (o : ArbOrder) : State :=
  { State.reset with ie := true, pendBus := true, pendUrx := true, params := { Params.default with arbOrder := o } }

theorem test_S1 : canDispatch { State.reset with pendBus := true } .busEv = false := by decide
theorem test_S6 : canDispatch (stateS6 .free) .busEv = true ∧ canDispatch (stateS6 .free) .urxEv = true := by decide
theorem test_S7 :
    canDispatch (stateS6 (.fixed orderS7)) .busEv = false ∧ canDispatch (stateS6 (.fixed orderS7)) .urxEv = true := by
  decide
theorem test_S3 : -- a completion is taken under IE = 0
    (nextOf (step { State.reset with phyBusyBus := true, sched := [.complete .bus] })).map
      (fun t => (t.phyBusyBus, t.pendBus)) = some (false, true) := by decide
theorem test_S9 : -- not enabled: the turn passes (log 5)
    (nextOf (step { State.reset with sched := [.complete .utx] })).map (fun t => (t.phyBusyUtx, t.pendUtx)) =
      some (false, false) := by decide
theorem test_arrival : -- S5
    (nextOf (step { State.reset with sched := [.arrive] })).map (fun t => t.pendUrx) = some true := by decide

/-! ## Witnesses: reset, invariants, encoding -/

/-- A reset state whose cells hold 0xEE (R36: the cells are any bytes). -/
def resetAnyCells : State := withQueues [] [] [] []

theorem wit_IsReset : resetAnyCells.IsReset := by constructor <;> decide
theorem wit_reset_IsReset : State.reset.IsReset := by constructor <;> decide

/-- The state of a step with a next state and the invariant. -/
def arriveNext : State := { resetAnyCells with sched := [.arrive] }

theorem wit_EveryStepKeepsTheQueueInvariant :
    arriveNext.Inv ∧ step arriveNext = .next { resetAnyCells with pendUrx := true } := ⟨by decide, rfl⟩
theorem wit_QueueInvariantHoldsInEveryReachableState : Reachable { resetAnyCells with pendUrx := true } :=
  .step (.reset (s := arriveNext) (by constructor <;> decide)) rfl

/-- A reset state with PUSH bus.tx, 7 on the port and FG's turn next, and the state after that step. -/
def pushStart : State := { resetAnyCells with fg := [0x10000007#32], sched := [.fg] }
def pushEnd : State :=
  { withQueues [7#8] [] [] [] with out := [.command 0x10000007#32 [], .response 0#32] }

theorem wit_QueueInvariantHoldsInEveryReachableState_element :
    Reachable pushEnd ∧ 0 < (pushEnd.queue .btx).len.toNat ∧ pushEnd.content .btx = [7#8] :=
  ⟨.step (.reset (s := pushStart) (by constructor <;> decide)) rfl, by decide, by decide⟩
theorem wit_NoStepChangesAParameter : step arriveNext = .next { resetAnyCells with pendUrx := true } := rfl
theorem wit_DecodingAnEncodedCommandGivesItBack :
    (Instr.pushMany .urx [0xFF#8, 0#8]).wellFormed = true ∧ (Instr.ieswap true).wellFormed = true := by decide
theorem wit_OnlyItsEncodingDecodesToACommand :
    [0xFF#32, 0#32].length = payloadLength 0x2C000002#32 ∧
    decode 0x2C000002#32 [0xFF#32, 0#32] = .command (.pushMany .urx [0xFF#8, 0#8]) := by decide
theorem wit_LegalHeaderMatchesExactlyOneOpcodeRow :
    (∀ w ∈ [0xFF#32], w.extractLsb' 8 24 = 0#24) ∧ legal 0x2C000001#32 [0xFF#32] = true ∧
    legal 0x30000001#32 [] = false := by
  refine ⟨fun w hw => ?_, by decide, by decide⟩
  rw [List.mem_singleton.mp hw]
  decide
theorem wit_LegalHeaderMatchesExactlyOneOpcodeRow_match :
    ∃ r ∈ opcodeRows, r.matches 0xD0000001#32 = true := by decide
theorem wit_FramingFollowsOpcodeAndCountAlone :
    [1#32, 2#32].length =
      (if (0x20010002#32).extractLsb' 28 4 = 0x2#4 then ((0x20010002#32).extractLsb' 0 16).toNat else 0) ∧
    ([] : List Word).length =
      (if (0x2C000000#32).extractLsb' 28 4 = 0x2#4 then ((0x2C000000#32).extractLsb' 0 16).toNat else 0) ∧
    ([] : List Word).length =
      (if (0xE000FFFF#32).extractLsb' 28 4 = 0x2#4 then ((0xE000FFFF#32).extractLsb' 0 16).toNat else 0) ∧
    1 < [1#32, 2#32].length := by decide
theorem wit_AssemblerRejects :
    assemble (.push .btx 255) = some (.push .btx 0xFF#8) ∧ assemble (.push .btx 256) = none ∧
    assemble (.ieswap 1) = some (.ieswap true) ∧ assemble (.ieswap 2) = none := by decide

/-! ## Witnesses: FIFO commands, at the boundaries of their branches -/

/-- A queue of capacity 1 that holds one byte. -/
def capacityOne : State :=
  { State.reset with
      params := { Params.default with cBtx := ⟨1, by decide⟩ }, btx := queueAt 0 1 [0xAB#8] }

theorem wit_Push_full : (withQueues [1#8, 2#8, 3#8, 4#8] [] [] []).Inv ∧
    (withQueues [1#8, 2#8, 3#8, 4#8] [] [] []).btx.len.toNat = 4 ∧ capacityOne.Inv ∧
    (capacityOne.queue .btx).len.toNat = (capacityOne.cap .btx).val := by decide
theorem wit_Push_room : (withQueues [1#8, 2#8, 3#8] [] [] []).Inv ∧
    ((withQueues [1#8, 2#8, 3#8] [] [] []).queue .btx).len.toNat ≠
      ((withQueues [1#8, 2#8, 3#8] [] [] []).cap .btx).val := by decide
theorem wit_PushMany_tooMany : capacityOne.Inv ∧ (capacityOne.cap .btx).val < [1#8, 2#8].length := by decide
theorem wit_PushMany_full : capacityOne.Inv ∧ ¬(capacityOne.cap .btx).val < [1#8].length ∧
    (capacityOne.cap .btx).val < (capacityOne.queue .btx).len.toNat + [1#8].length := by decide
theorem wit_PushMany_room : capacityOne.Inv ∧ ¬(capacityOne.cap .btx).val < ([] : List Byte).length ∧
    ¬(capacityOne.cap .btx).val < (capacityOne.queue .btx).len.toNat + ([] : List Byte).length ∧
    ¬(State.reset.cap .urx).val < (State.reset.queue .urx).len.toNat + [1#8, 2#8, 3#8, 4#8].length := by decide
theorem wit_PushManyIsRepeatedPush :
    (queueOf4 [7#8]).Wf ⟨4, by decide⟩ ∧ (qPushMany ⟨4, by decide⟩ (queueOf4 [7#8]) [1#8, 2#8, 3#8]).1 = .ok ∧
    [1#8, 2#8, 3#8] = [1#8, 2#8] ++ 3#8 :: [] := by decide
theorem wit_Pop_empty : State.reset.Inv ∧ (State.reset.queue .btx).len = 0#16 := by decide
theorem wit_Pop_some : capacityOne.Inv ∧ (capacityOne.queue .btx).len ≠ 0#16 := by decide
theorem wit_Peeks : capacityOne.Inv ∧ (capacityOne.content .btx).head? = some 0xAB#8 ∧
    (State.reset.content .urx).getLast? = none := by decide
theorem wit_FlagTests : (State.reset.content .btx = []) ∧
    (capacityOne.content .btx).length = (capacityOne.cap .btx).val := by decide
theorem wit_RingBufferRefinesTheListFifo :
    (queueAt 3 1 [0x10#8, 0x10#8, 0x10#8, 0x11#8]).Wf ⟨4, by decide⟩ := by decide
theorem wit_BytesComeOutInTheOrderTheyWereAdded :
    (queueAt 3 1 [0x10#8, 0x10#8, 0x10#8, 0x11#8]).Wf ⟨4, by decide⟩ ∧
    QOp.popAll ∉ [QOp.push 1#8, .pop, .pushMany [2#8, 3#8], .pop] := by decide

/-! ## Witnesses: channel commands and rules over all commands -/

theorem wit_Transmit_full : (withQueues [1#8, 2#8, 3#8, 4#8] [] [5#8, 6#8, 7#8, 8#8] []).Inv ∧ ∀ ch,
    ((withQueues [1#8, 2#8, 3#8, 4#8] [] [5#8, 6#8, 7#8, 8#8] []).queue (txq ch)).len.toNat =
      ((withQueues [1#8, 2#8, 3#8, 4#8] [] [5#8, 6#8, 7#8, 8#8] []).cap (txq ch)).val :=
  ⟨by decide, by intro ch; cases ch <;> decide⟩
theorem wit_Transmit_room : (busStart .idle [] []).Inv ∧ (busStart .collision [1#8] []).Inv ∧
    ((busStart .idle [] []).queue (txq .bus)).len.toNat ≠ ((busStart .idle [] []).cap (txq .bus)).val ∧
    ((busStart .collision [1#8] []).queue (txq .bus)).len.toNat ≠
      ((busStart .collision [1#8] []).cap (txq .bus)).val := by decide
theorem wit_Init_queues : (.btx : QueueId) = txq .bus ∧ (.urx : QueueId) = rxq .uart ∧
    (.btx : QueueId) ≠ txq .uart := by decide
theorem wit_OnlyTransmitArms :
    exec (.transmit .bus 1#8) State.reset = .next ((transmitEffect .bus 1#8 State.reset).respond .ok 0#16) ∧
    State.reset.pend .busEv = false ∧
    ((transmitEffect .bus 1#8 State.reset).respond .ok 0#16).pend .busEv = true := ⟨rfl, by decide, by decide⟩
theorem wit_OnlyInitDisarms :
    exec (.init .uart) { State.reset with pendUrx := true } =
      .next ((initEffect .uart { State.reset with pendUrx := true }).respond .ok 0#16) ∧
    ({ State.reset with pendUrx := true } : State).pend .urxEv = true ∧
    ((initEffect .uart { State.reset with pendUrx := true }).respond .ok 0#16).pend .urxEv = false :=
  ⟨rfl, by decide, by decide⟩
theorem wit_OnlyFullTransmitAndInitWriteAStatus :
    exec (.init .uart) (uartStart .overflow true [] []) =
      .next ((initEffect .uart (uartStart .overflow true [] [])).respond .ok 0#16) ∧
    ((initEffect .uart (uartStart .overflow true [] [])).respond .ok 0#16).uartStatus ≠
      (uartStart .overflow true [] []).uartStatus ∧
    exec (.transmit .bus 1#8) (busStart .idle [1#8, 2#8, 3#8, 4#8] []) =
      .next ((transmitEffect .bus 1#8 (busStart .idle [1#8, 2#8, 3#8, 4#8] [])).respond .ok 0#16) ∧
    ((transmitEffect .bus 1#8 (busStart .idle [1#8, 2#8, 3#8, 4#8] [])).respond .ok 0#16).busStatus ≠
      (busStart .idle [1#8, 2#8, 3#8, 4#8] []).busStatus := ⟨rfl, by decide, rfl, by decide⟩

/-! ## Witnesses: steps -/

/-- FG's turn with these words on the port. -/
def fgTurn (ws : List Word) : State := { State.reset with fg := ws, sched := [.fg, .arrive] }

theorem wit_StepRunsTheDecodedCommand :
    (fgTurn [0x2C000001#32, 0xFF#32, 0#32]).sched = .fg :: [.arrive] ∧
    (fgTurn [0x2C000001#32, 0xFF#32, 0#32]).fg = 0x2C000001#32 :: ([0xFF#32] ++ [0#32]) ∧
    [0xFF#32].length = payloadLength 0x2C000001#32 ∧
    decode 0x2C000001#32 [0xFF#32] = .command (.pushMany .urx [0xFF#8]) := by decide
theorem wit_StepRunsTheDecodedCommand_encoded :
    (fgTurn [0xA8000041#32, 7#32]).sched = .fg :: [.arrive] ∧ (Instr.transmit .uart 0x41#8).wellFormed = true ∧
    (fgTurn [0xA8000041#32, 7#32]).fg = encode (.transmit .uart 0x41#8) ++ [7#32] := by decide
theorem wit_IllegalCommand :
    (fgTurn [0x20010001#32, 5#32, 0#32]).sched = .fg :: [.arrive] ∧
    (fgTurn [0x20010001#32, 5#32, 0#32]).fg = 0x20010001#32 :: ([5#32] ++ [0#32]) ∧
    [5#32].length = payloadLength 0x20010001#32 ∧ legal 0x20010001#32 [5#32] = false := by decide
theorem wit_TurnOfADisabledAgent_fg :
    (fgTurn [0x20000002#32, 1#32]).sched = .fg :: [.arrive] ∧ frame (fgTurn [0x20000002#32, 1#32]).fg = none := by
  decide
theorem wit_TurnOfADisabledAgent_dispatch (d : Draws) :
    ({ State.reset with sched := [.dispatch .busEv d], pendBus := true } : State).sched = .dispatch .busEv d :: [] ∧
    ({ State.reset with sched := [.dispatch .busEv d], pendBus := true } : State).ie = false ∧
    ({ State.reset with sched := [.dispatch .busEv d], ie := true } : State).pend .busEv = false := ⟨rfl, rfl, rfl⟩
theorem wit_TurnOfADisabledAgent_order :
    ({ stateS6 (.fixed orderS7) with sched := [.dispatch .busEv (okDraws 0#8 0#8)] } : State).sched =
      [.dispatch .busEv (okDraws 0#8 0#8)] ∧
    ¬ArbAllowed { stateS6 (.fixed orderS7) with sched := [.dispatch .busEv (okDraws 0#8 0#8)] } .busEv := by
  refine ⟨rfl, ?_⟩
  rw [← arbAllows_iff]
  · decide
  · rfl
theorem wit_TurnOfADisabledAgent_complete :
    ({ State.reset with sched := [.complete .utx] } : State).sched = [.complete .utx] ∧
    ({ State.reset with sched := [.complete .utx] } : State).phyBusy .utx = false := by decide

/-! ## Witnesses: events. `ready` is a state whose next step is an enabled dispatch. -/

/-- An enabled dispatch is the next step. -/
def ready (e : EventSource) (d : Draws) (s : State) : State :=
  { (s.setPend e true) with ie := true, sched := [.dispatch e d] }

theorem ready_dispatches (e : EventSource) (d : Draws) (s : State) (h : s.params.arbOrder = .free) :
    Dispatches (ready e d s) e d [] := by
  refine ⟨rfl, rfl, ?_, .inl ?_⟩
  · cases e <;> rfl
  · cases e <;> exact h

theorem wit_BusEvent_collision :
    (ready .busEv ⟨0#8, 0#8, true, false, false, false⟩ (busStart .busy [1#8] [])).Inv ∧
    Dispatches (ready .busEv ⟨0#8, 0#8, true, false, false, false⟩ (busStart .busy [1#8] [])) .busEv
      ⟨0#8, 0#8, true, false, false, false⟩ [] := ⟨by decide, ready_dispatches _ _ _ rfl⟩
theorem wit_BusEvent_busy_full :
    (ready .busEv (okDraws 9#8 0#8) (busStart .busy [1#8] [5#8, 6#8, 7#8, 8#8])).Inv ∧
    Dispatches (ready .busEv (okDraws 9#8 0#8) (busStart .busy [1#8] [5#8, 6#8, 7#8, 8#8])) .busEv
      (okDraws 9#8 0#8) [] ∧
    (ready .busEv (okDraws 9#8 0#8) (busStart .busy [1#8] [5#8, 6#8, 7#8, 8#8])).brx.len.toNat = 4 :=
  ⟨by decide, ready_dispatches _ _ _ rfl, by decide⟩
theorem wit_BusEvent_busy_room :
    (ready .busEv (okDraws 9#8 0#8) (busStart .busy [] [5#8, 6#8, 7#8])).Inv ∧
    Dispatches (ready .busEv (okDraws 9#8 0#8) (busStart .busy [] [5#8, 6#8, 7#8])) .busEv (okDraws 9#8 0#8) [] :=
  ⟨by decide, ready_dispatches _ _ _ rfl⟩
theorem wit_BusEvent_not_busy :
    (ready .busEv (okDraws 9#8 0#8) (busStart .bufferOverflow [1#8] [])).Inv ∧
    Dispatches (ready .busEv (okDraws 9#8 0#8) (busStart .bufferOverflow [1#8] [])) .busEv (okDraws 9#8 0#8) [] :=
  ⟨by decide, ready_dispatches _ _ _ rfl⟩
theorem wit_UartTransmitEvent_error (stops : Bool) :
    (ready .utxEv (errDraws true false true) (uartStart .txBusy stops [0x41#8] [])).Inv ∧
    Dispatches (ready .utxEv (errDraws true false true) (uartStart .txBusy stops [0x41#8] [])) .utxEv
      (errDraws true false true) [] ∧ (errDraws true false true).frameError = true :=
  ⟨by cases stops <;> decide, ready_dispatches _ _ _ rfl, rfl⟩
theorem wit_UartTransmitEvent_ok :
    (ready .utxEv (errDraws false false false) (uartStart .txBusy true [0x41#8] [])).Inv ∧
    Dispatches (ready .utxEv (errDraws false false false) (uartStart .txBusy true [0x41#8] [])) .utxEv
      (errDraws false false false) [] := ⟨by decide, ready_dispatches _ _ _ rfl⟩
theorem wit_UartReceiveEvent_error :
    (ready .urxEv (errDraws true true true) (uartStart .txBusy true [] [])).Inv ∧
    Dispatches (ready .urxEv (errDraws true true true) (uartStart .txBusy true [] [])) .urxEv
      (errDraws true true true) [] ∧
    Dispatches (ready .urxEv (errDraws false true true) (uartStart .txBusy true [] [])) .urxEv
      (errDraws false true true) [] ∧
    Dispatches (ready .urxEv (errDraws false false true) (uartStart .txBusy true [] [])) .urxEv
      (errDraws false false true) [] :=
  ⟨by decide, ready_dispatches _ _ _ rfl, ready_dispatches _ _ _ rfl, ready_dispatches _ _ _ rfl⟩
theorem wit_UartReceiveEvent_full :
    (ready .urxEv (errDraws false false false) (uartStart .txIdle true [] [1#8, 2#8, 3#8, 4#8])).Inv ∧
    Dispatches (ready .urxEv (errDraws false false false) (uartStart .txIdle true [] [1#8, 2#8, 3#8, 4#8])) .urxEv
      (errDraws false false false) [] := ⟨by decide, ready_dispatches _ _ _ rfl⟩
theorem wit_UartReceiveEvent_room :
    (ready .urxEv (errDraws false false false) (uartStart .parityError true [] [1#8, 2#8, 3#8])).Inv ∧
    Dispatches (ready .urxEv (errDraws false false false) (uartStart .parityError true [] [1#8, 2#8, 3#8])) .urxEv
      (errDraws false false false) [] := ⟨by decide, ready_dispatches _ _ _ rfl⟩
theorem wit_Arbiter_free : (stateS6 .free).params.arbOrder = .free ∧ (stateS6 .free).ie = true ∧
    (stateS6 .free).pend .busEv = true := by decide
theorem wit_Arbiter_fixed : (stateS6 (.fixed orderS7)).params.arbOrder = .fixed orderS7 ∧
    (stateS6 (.fixed orderS7)).ie = true ∧ ∃ e, (stateS6 (.fixed orderS7)).pend e = true :=
  ⟨rfl, rfl, .busEv, rfl⟩
theorem wit_NoHandlerRunsWhileMasked :
    State.reset.ie = false ∧
    step { State.reset with pendBus := true, sched := [.dispatch .busEv (okDraws 0#8 0#8)] } =
      .next { State.reset with pendBus := true } ∧
    nextMove { State.reset with pendBus := true, sched := [.dispatch .busEv (okDraws 0#8 0#8)] } ≠ .fg :=
  ⟨rfl, rfl, by decide⟩
theorem wit_NoHandlerRunsWhileMasked_enable :
    exec (.ieswap true) { State.reset with pendBus := true } =
      .next (({ State.reset with pendBus := true } : State).setIe true |>.respond .ok 0#16) ∧
    ({ State.reset with pendBus := true } : State).pend .busEv = true ∧
    ArbAllowed { State.reset with pendBus := true } .busEv := ⟨rfl, rfl, .inl rfl⟩
theorem wit_Completion :
    ({ State.reset with phyBusyUtx := true, sched := [.complete .utx] } : State).sched = .complete .utx :: [] ∧
    ({ State.reset with phyBusyUtx := true, sched := [.complete .utx] } : State).phyBusy .utx = true := by decide
theorem wit_Arrival :
    ({ State.reset with sched := [.arrive, .arrive] } : State).sched = .arrive :: [.arrive] ∧
    ([.arrive] : List Move) = .arrive :: [] := by decide

/-! ## Witnesses: steps that write, latch, enable, drain -/

/-- The state after the dispatch of HB4. -/
def afterHB4 : State := dispatch .busEv (okDraws 9#8 0#8)
  ((ready .busEv (okDraws 9#8 0#8) (busStart .busy [1#8] [5#8])).setSched [])

theorem wit_EveryWrittenByteIsTheOldestQueuedByte :
    (ready .busEv (okDraws 9#8 0#8) (busStart .busy [1#8] [5#8])).Inv ∧
    step (ready .busEv (okDraws 9#8 0#8) (busStart .busy [1#8] [5#8])) = .next afterHB4 ∧
    afterHB4.out = [.write .bus 1#8] := ⟨by decide, rfl, by decide⟩
/-- X3 as the next step: UTX_EV with one byte in UTX. -/
def startX3 : State := ready .utxEv (errDraws false false false) (uartStart .txIdle true [0x42#8] [])
def afterX3 : State := dispatch .utxEv (errDraws false false false) (startX3.setSched [])

theorem wit_EveryWrittenByteIsTheOldestQueuedByte_uart :
    startX3.Inv ∧ step startX3 = .next afterX3 ∧ afterX3.out = [.write .uart 0x42#8] ∧ ArbAllowed startX3 .utxEv :=
  ⟨by decide, rfl, by decide, .inl rfl⟩
theorem wit_BusyLatch_set :
    step (ready .busEv (okDraws 9#8 0#8) (busStart .busy [1#8] [5#8])) = .next afterHB4 ∧
    (ready .busEv (okDraws 9#8 0#8) (busStart .busy [1#8] [5#8])).phyBusy .bus = false ∧
    afterHB4.phyBusy .bus = true := ⟨rfl, by decide, by decide⟩
theorem wit_BusyLatch_clear :
    step { State.reset with phyBusyBus := true, sched := [.complete .bus] } =
      .next { State.reset with pendBus := true } := rfl
theorem wit_OnlyIeswapChangesTheEnable :
    step { fgTurn [0xD0000001#32] with sched := [.fg] } =
      .next { State.reset with
        ie := true, out := [.command 0xD0000001#32 [], .response 0#32] } ∧ true ≠ State.reset.ie :=
  ⟨rfl, by decide⟩
theorem wit_HandlersDrain :
    (ready .busEv (okDraws 9#8 0#8) (busStart .busy [1#8] [5#8])).Inv ∧
    step (ready .busEv (okDraws 9#8 0#8) (busStart .busy [1#8] [5#8])) = .next afterHB4 ∧
    nextMove (ready .busEv (okDraws 9#8 0#8) (busStart .busy [1#8] [5#8])) ≠ .fg := ⟨by decide, rfl, by decide⟩

/-! ## Witnesses: stalls, hazards, the end of a run -/

/-- A stalled BUS channel (Z4) whose BTX is full, with these words on the port and FG's turn. -/
def stalledBus (ws : List Word) : State :=
  { busStart .collision [1#8, 2#8, 3#8, 4#8] [] with fg := ws, sched := [.fg] }

theorem wit_StalledBus :
    BusStalled (stalledBus [0xC0000000#32]) ∧ (nextOf (step (stalledBus [0xC0000000#32]))).isSome ∧
    BusStalled (stalledBus [0xA0000005#32]) ∧ (nextOf (step (stalledBus [0xA0000005#32]))).isSome := by decide
theorem wit_StalledUartTransmit :
    UartTxStalled { uartStart .frameError true [0x41#8] [] with fg := [0xC8000000#32], sched := [.fg] } ∧
    (nextOf (step { uartStart .frameError true [0x41#8] [] with
      fg := [0xC8000000#32], sched := [.fg] })).isSome := by decide

/-- P2 from its step 4: the byte 0xA5 is queued and BUS_EV is armed. -/
def cycleStart : State :=
  { busStart .idle [0xA5#8] [] with
      ie := true, pendBus := true
      sched := [.dispatch .busEv (okDraws 0#8 0#8), .complete .bus, .dispatch .busEv (okDraws 0x3C#8 0#8)] }

theorem wit_BusTransferCycle : cycleStart.Inv ∧
    cycleStart.sched = .dispatch .busEv (okDraws 0#8 0#8) :: .complete .bus ::
      .dispatch .busEv (okDraws 0x3C#8 0#8) :: [] ∧
    cycleStart.ie = true ∧ cycleStart.pendBus = true ∧ ArbAllowed cycleStart .busEv ∧ cycleStart.busStatus = .idle ∧
    cycleStart.content .btx = [0xA5#8] ∧ cycleStart.brx.len.toNat ≠ cycleStart.params.cBrx.val ∧
    (okDraws 0#8 0#8).collision = false :=
  ⟨by decide, rfl, rfl, rfl, .inl rfl, rfl, by decide, by decide, rfl⟩

/-- P2, steps 4, 6 and 7: the three steps of the cycle give the states of the spec's table. -/
theorem test_P2_cycle : (nextOf (core.run 3 cycleStart)).map busEnd =
    some ⟨.idle, [], [0x3C#8], false, false, [.write .bus 0xA5#8]⟩ := by decide

/-- Z3: a byte is on the wire and BTX is full when FG issues TRANSMIT bus, 5. -/
def lostByteStart : State :=
  { busStart .busy [1#8, 2#8, 3#8, 4#8] [] with
      ie := true, phyBusyBus := true, fg := [0xA0000005#32]
      sched := [.fg, .complete .bus, .dispatch .busEv (okDraws 9#8 0#8)] }

theorem wit_FullTransmitLosesTheBusReceiveByte : lostByteStart.Inv ∧
    lostByteStart.sched = .fg :: .complete .bus :: .dispatch .busEv (okDraws 9#8 0#8) :: [] ∧
    lostByteStart.fg = encode (.transmit .bus 5#8) ++ [] ∧ lostByteStart.ie = true ∧
    ArbAllowed lostByteStart .busEv ∧ lostByteStart.busStatus = .busy ∧ lostByteStart.phyBusyBus = true ∧
    lostByteStart.content .btx = 1#8 :: [2#8, 3#8, 4#8] ∧
    (1#8 :: [2#8, 3#8, 4#8]).length = lostByteStart.params.cBtx.val ∧ (okDraws 9#8 0#8).collision = false :=
  ⟨by decide, rfl, by decide, rfl, .inl rfl, rfl, rfl, by decide, by decide, rfl⟩

theorem test_Z3 : (nextOf (core.run 3 lostByteStart)).map busEnd =
    some ⟨.busy, [2#8, 3#8, 4#8], [], false, true,
      [.command 0xA0000005#32 [], .response 0#32, .write .bus 1#8]⟩ := by decide

/-- Z1: INIT(BUS) with a byte on the wire. -/
def initOnWireStart : State :=
  { busStart .busy [7#8] [] with
      ie := true, phyBusyBus := true, fg := [0xC0000000#32]
      sched := [.fg, .complete .bus, .dispatch .busEv (okDraws 9#8 0#8)] }

theorem wit_InitWithAByteOnTheWire : initOnWireStart.Inv ∧
    initOnWireStart.sched = .fg :: .complete .bus :: .dispatch .busEv (okDraws 9#8 0#8) :: [] ∧
    initOnWireStart.fg = encode (.init .bus) ++ [] ∧ initOnWireStart.ie = true ∧
    ArbAllowed initOnWireStart .busEv ∧ initOnWireStart.phyBusyBus = true ∧
    (okDraws 9#8 0#8).collision = false := ⟨by decide, rfl, by decide, rfl, .inl rfl, rfl, rfl⟩

theorem test_Z1 : (nextOf (core.run 3 initOnWireStart)).map busEnd =
    some ⟨.idle, [], [], false, false, [.command 0xC0000000#32 [], .response 0#32]⟩ := by decide

theorem wit_EndedRunOnlyWaitsForArrivals :
    RunEnded { State.reset with pendBus := true, sched := [.dispatch .busEv (okDraws 0#8 0#8)] } ∧
    step { State.reset with pendBus := true, sched := [.dispatch .busEv (okDraws 0#8 0#8)] } =
      .next { State.reset with pendBus := true } ∧
    nextMove { State.reset with pendBus := true, sched := [.dispatch .busEv (okDraws 0#8 0#8)] } ≠ .arrive :=
  ⟨⟨rfl, .inl rfl, by intro p; cases p <;> rfl⟩, rfl, by decide⟩
theorem wit_EndedRun_nothing_pending :
    RunEnded { State.reset with ie := true, sched := [.complete .utx] } :=
  ⟨rfl, .inr (by intro e; cases e <;> rfl), by intro p; cases p <;> rfl⟩

/-- Two states that differ in the front and the cells of BTX, with the content [1, 2] in both. -/
def frontZero : State := { State.reset with btx := queueAt 0 2 [1#8, 2#8, 0#8, 0#8], sched := [.arrive] }
def frontThree : State := { State.reset with btx := queueAt 3 2 [2#8, 7#8, 7#8, 1#8], sched := [.arrive] }

theorem wit_FrontAndOutsideCells : frontZero.Inv ∧ frontThree.Inv ∧ ObsEq frontZero frontThree ∧
    frontZero ≠ frontThree ∧
    step frontZero = .next { State.reset with btx := queueAt 0 2 [1#8, 2#8, 0#8, 0#8], pendUrx := true } :=
  ⟨by decide, by decide,
    ⟨by unfold Queue.ObsEq; decide, rfl, rfl, rfl, ⟨rfl, rfl⟩, ⟨rfl, fun e => by cases e <;> rfl,
      fun p => by cases p <;> rfl⟩, ⟨rfl, rfl, rfl, rfl⟩, rfl⟩, by decide, rfl⟩

/-! ## Witnesses: fair runs -/

/-- The run from a state. -/
def runFrom (s : State) : Nat → State
  | 0 => s
  | n + 1 => (nextOf (step (runFrom s n))).getD (runFrom s n)

/-- Nothing but an arrival can happen: no word on the port, IE 0, no busy path. -/
structure Quiet (s : State) : Prop where
  fg : s.fg = []
  ie : s.ie = false
  bus : s.phyBusyBus = false
  utx : s.phyBusyUtx = false

theorem quiet_step {s : State} (h : Quiet s) : ∃ t, step s = .next t ∧ Quiet t := by
  have hfr : frame (afterChoice s).fg = none := by simp [h.fg, frame]
  have ha : Quiet (afterChoice s) := ⟨by simp [h.fg], by simp [h.ie], by simp [h.bus], by simp [h.utx]⟩
  have hp : ∀ p, (afterChoice s).phyBusy p = false := fun p => by cases p <;> simp [h.bus, h.utx]
  unfold step
  cases nextMove s with
  | fg => exact ⟨_, by simp only [runMove, fgStep, hfr], ha⟩
  | dispatch e d => exact ⟨afterChoice s, by simp [runMove, canDispatch, h.ie], ha⟩
  | complete p => exact ⟨afterChoice s, by simp [runMove, hp], ha⟩
  | arrive => exact ⟨arrive (afterChoice s), rfl, by
      constructor <;> simp [arrive, h.fg, h.ie, h.bus, h.utx]⟩

theorem runFrom_succ {s t : State} {n : Nat} (h : step (runFrom s n) = .next t) : runFrom s (n + 1) = t := by
  simp [runFrom, h, nextOf]

/-- From the step `k` on the run is quiet, and every step is a step. -/
theorem runFrom_quiet {s : State} {k : Nat} (hq : Quiet (runFrom s k)) :
    ∀ n, k ≤ n → Quiet (runFrom s n) ∧ step (runFrom s n) = .next (runFrom s (n + 1)) := by
  intro n hn
  induction n, hn using Nat.le_induction with
  | base =>
    obtain ⟨t, ht, _⟩ := quiet_step hq
    exact ⟨hq, by rw [runFrom_succ ht]; exact ht⟩
  | succ n _ ih =>
    obtain ⟨t, ht, hqt⟩ := quiet_step ih.1
    have hq' : Quiet (runFrom s (n + 1)) := by rw [runFrom_succ ht]; exact hqt
    obtain ⟨u, hu, _⟩ := quiet_step hq'
    exact ⟨hq', by rw [runFrom_succ hu]; exact hu⟩

/-- A byte is on the wire and its completion is the next step. -/
def completionStart : State := { State.reset with phyBusyBus := true, sched := [.complete .bus] }

theorem wit_BusyPathIsEventuallyCompleted :
    IsRun (runFrom completionStart) ∧ FairCompletion (runFrom completionStart) ∧
    (runFrom completionStart 0).phyBusy .bus = true := by
  have h1 : step (runFrom completionStart 0) = .next (runFrom completionStart 1) := rfl
  have hq : Quiet (runFrom completionStart 1) := ⟨rfl, rfl, rfl, rfl⟩
  refine ⟨fun n => ?_, fun p n h => ?_, rfl⟩
  · cases n with
    | zero => exact h1
    | succ n => exact (runFrom_quiet hq (n + 1) (by omega)).2
  · have h2 := h (n + 1) (by omega)
    have h3 := (runFrom_quiet hq (n + 1) (by omega)).1
    cases p <;> simp [h3.bus, h3.utx] at h2

/-- URX_EV is pending with IE 1; it is dispatched, then FG issues DI. -/
def serviceStart : State :=
  { State.reset with
      ie := true, pendUrx := true, fg := [0xD0000000#32]
      sched := [.dispatch .urxEv (okDraws 0#8 0x61#8), .fg] }

theorem wit_PendingSourceIsEventuallyServed :
    IsRun (runFrom serviceStart) ∧ FairDispatch (runFrom serviceStart) ∧
    (runFrom serviceStart 0).params.arbOrder = .free ∧ (runFrom serviceStart 0).pend .urxEv = true ∧
    canDispatch (runFrom serviceStart 0) .urxEv = true := by
  have h1 : step (runFrom serviceStart 0) = .next (runFrom serviceStart 1) := rfl
  have h2 : step (runFrom serviceStart 1) = .next (runFrom serviceStart 2) := rfl
  have hq : Quiet (runFrom serviceStart 2) := ⟨rfl, rfl, rfl, rfl⟩
  refine ⟨fun n => ?_, fun e n h => ?_, rfl, rfl, rfl⟩
  · match n with
    | 0 => exact h1
    | 1 => exact h2
    | n + 2 => exact (runFrom_quiet hq (n + 2) (by omega)).2
  · have h3 := h (n + 2) (by omega)
    have h4 := (runFrom_quiet hq (n + 2) (by omega)).1
    simp [canDispatch, h4.ie] at h3

end Sys2Proof.Tests
end

/-! PROOFS of the family 00_scope: the parameters of R7 are fixed for the life of the block. -/

namespace Sys2Proof.Machine

@[simp] theorem acceptCommand_params (h : Word) (payload rest : List Word) (s : State) :
    (acceptCommand h payload rest s).params = s.params := rfl

@[simp] theorem answerIllegal_params (s : State) : (answerIllegal s).params = s.params := rfl

@[simp] theorem dispatch_params (e : EventSource) (d : Draws) (s : State) : (dispatch e d s).params = s.params :=
  (dispatch_keepsPort e d s).params

@[simp] theorem complete_params (p : TxPath) (s : State) : (complete p s).params = s.params := by simp [complete]

@[simp] theorem arrive_params (s : State) : (arrive s).params = s.params := rfl

/-- Settles O5, by the cases of a step: what each agent does keeps the parameters, and so does taking its choice off. -/
theorem noStepChangesAParameter : Obligations.NoStepChangesAParameter := by
  intro s t h
  rcases step_cases h with ⟨-, -, rfl⟩ | ⟨-, hd, payload, rest, i, -, -, he⟩ | ⟨-, hd, payload, rest, why, -, -, rfl⟩ |
    ⟨e, d, -, -, rfl⟩ | ⟨e, d, -, -, rfl⟩ | ⟨p, -, -, rfl⟩ | ⟨p, -, -, rfl⟩ | ⟨-, rfl⟩
  case inr.inl => simpa using exec_params he
  all_goals simp

end Sys2Proof.Machine

/-! PROOFS of the family 10_state: the queue invariant and the ring buffer (R23, R24, R58, R100 to R106), the reset
values (R37), who writes each status, latch and the enable (R27 to R34), and what FG cannot observe (R35, R36, R40). -/

namespace Sys2Proof.Machine

variable {s s' t : State} {c : Capacity} {q r : Queue}

/-! ## What the scheduler's operations do to the queues and the latches -/

@[simp] theorem acceptCommand_ie (hd : Word) (payload rest : List Word) (s : State) :
    (acceptCommand hd payload rest s).ie = s.ie := rfl

@[simp] theorem acceptCommand_phyBusy (hd : Word) (payload rest : List Word) (s : State) (p : TxPath) :
    (acceptCommand hd payload rest s).phyBusy p = s.phyBusy p := by simp [acceptCommand]

@[simp] theorem answerIllegal_ie (s : State) : (answerIllegal s).ie = s.ie := rfl

@[simp] theorem answerIllegal_phyBusy (s : State) (p : TxPath) : (answerIllegal s).phyBusy p = s.phyBusy p := by
  simp [answerIllegal]

@[simp] theorem complete_queue (p : TxPath) (s : State) (id : QueueId) : (complete p s).queue id = s.queue id := by
  simp [complete]

@[simp] theorem complete_ie (p : TxPath) (s : State) : (complete p s).ie = s.ie := by simp [complete]

@[simp] theorem complete_phyBusy (p p' : TxPath) (s : State) :
    (complete p s).phyBusy p' = if p' = p then false else s.phyBusy p' := by simp [complete]

@[simp] theorem arrive_queue (s : State) (id : QueueId) : (arrive s).queue id = s.queue id := by simp [arrive]

@[simp] theorem arrive_ie (s : State) : (arrive s).ie = s.ie := rfl

@[simp] theorem arrive_phyBusy (s : State) (p : TxPath) : (arrive s).phyBusy p = s.phyBusy p := by simp [arrive]

/-- Every way a step that is not FG's can end (R196 to R198). -/
theorem step_cases_of_not_fg (h : step s = .next t) (hm : nextMove s ≠ .fg) :
    (∃ e d, canDispatch s e = true ∧ t = dispatch e d (afterChoice s)) ∨ (∃ p, t = complete p (afterChoice s)) ∨
    t = arrive (afterChoice s) ∨ t = afterChoice s := by
  rcases step_cases h with ⟨hf, -⟩ | ⟨hf, -⟩ | ⟨hf, -⟩ | ⟨e, d, -, hc, ht⟩ | ⟨e, d, -, -, ht⟩ | ⟨p, -, -, ht⟩ |
    ⟨p, -, -, ht⟩ | ⟨-, ht⟩
  · exact absurd hf hm
  · exact absurd hf hm
  · exact absurd hf hm
  · exact .inl ⟨e, d, hc, ht⟩
  · exact .inr (.inr (.inr ht))
  · exact .inr (.inl ⟨p, ht⟩)
  · exact .inr (.inr (.inr ht))
  · exact .inr (.inr (.inl ht))

/-! ## The queue invariant of reset states and of steps -/

/-- Each queue of a reset state is as reset leaves it. -/
theorem isReset_queue (h : s.IsReset) (id : QueueId) : (s.queue id).IsReset (s.cap id) := by
  cases id
  · exact h.btx
  · exact h.brx
  · exact h.utx
  · exact h.urx

theorem wf_of_isReset (h : q.IsReset c) : q.Wf c := by
  obtain ⟨hb, hf, hl⟩ := h
  exact ⟨hb, by simpa [hf] using Capacity_pos c, by simp [hl]⟩

theorem inv_of_isReset (h : s.IsReset) : s.Inv := inv_iff.mpr fun id => wf_of_isReset (isReset_queue h id)

theorem afterChoice_inv (hi : s.Inv) : (afterChoice s).Inv := inv_of_same_queues hi (by simp) (by simp)

theorem step_inv (hi : s.Inv) (h : step s = .next t) : t.Inv := by
  have hi' := afterChoice_inv hi
  rcases step_cases h with ⟨-, -, rfl⟩ | ⟨-, hd, payload, rest, i, -, -, he⟩ | ⟨-, hd, payload, rest, why, -, -, rfl⟩ |
    ⟨e, d, -, -, rfl⟩ | ⟨e, d, -, -, rfl⟩ | ⟨p, -, -, rfl⟩ | ⟨p, -, -, rfl⟩ | ⟨-, rfl⟩
  · exact hi'
  · exact exec_inv (s := acceptCommand hd payload rest (afterChoice s)) hi' he
  · exact hi'
  · exact dispatch_inv e d hi'
  · exact hi'
  · exact inv_of_same_queues hi' (by simp) (by simp)
  · exact hi'
  · exact inv_of_same_queues hi' (by simp) (by simp)

theorem inv_of_reachable (h : Reachable s) : s.Inv := by
  induction h with
  | reset h => exact inv_of_isReset h
  | step _ hs ih => exact step_inv ih hs

/-- The element at offset `i` of the content is the storage cell `(front + i) mod C` (R24). -/
theorem content_getElem?_eq_buf (hw : q.Wf c) {i : Nat} (h : i < q.len.toNat) :
    (q.content c)[i]? = q.buf[(q.front.toNat + i) % c.val]? := by
  have hb : q.index c i < q.buf.length := hw.1 ▸ index_lt c q i
  rw [List.getElem?_eq_getElem (by simpa using h), content_getElem, Queue.cell,
    List.getD_eq_getElem?_getD, List.getElem?_eq_getElem hb]
  exact (List.getElem?_eq_getElem hb).symm

/-- Settles O3: `step_inv`, by the cases of a step. -/
theorem everyStepKeepsTheQueueInvariant : Obligations.EveryStepKeepsTheQueueInvariant :=
  fun _ _ hi h => step_inv hi h

/-- Settles O2. -/
theorem queueInvariantHoldsAtReset : Obligations.QueueInvariantHoldsAtReset := fun _ h => inv_of_isReset h

/-- Settles O4: every reachable state has the queue invariant, and with it the content is read from the cells of R24. -/
theorem queueInvariantHoldsInEveryReachableState : Obligations.QueueInvariantHoldsInEveryReachableState := by
  intro s h id
  have hw := inv_iff.mp (inv_of_reachable h) id
  exact ⟨hw.2.2, content_length, fun i hlt => content_getElem?_eq_buf hw hlt⟩

/-! ## The ring buffer as a list FIFO -/

theorem qPushMany_queue_of_no_room (bs : List Byte) (h : ¬q.len.toNat + bs.length ≤ c.val) :
    (qPushMany c q bs).2 = q := by
  by_cases h1 : c.val < bs.length
  · rw [qPushMany_of_tooMany bs h1]
  · rw [qPushMany_of_full bs (by omega) (by omega)]

theorem ringOp_wf (hw : q.Wf c) (op : QOp) : (ringOp c q op).2.Wf c := by
  cases op with
  | push b => exact qPush_wf hw b
  | pushMany bs => exact qPushMany_wf hw bs
  | pop => exact qPop_wf hw
  | popAll => exact qPopAll_wf hw
  | len => exact hw
  | front => exact hw
  | back => exact hw

/-- One operation on the ring buffer answers what it answers on the list of the content, and leaves that list. -/
theorem ringOp_refines (hw : q.Wf c) (op : QOp) :
    (ringOp c q op).1 = (listOp c.val (q.content c) op).1 ∧
      (ringOp c q op).2.content c = (listOp c.val (q.content c) op).2 := by
  cases op with
  | push b =>
    by_cases h : q.len.toNat = c.val
    · simp [ringOp, listOp, qPush_of_full b h, h]
    · simp [ringOp, listOp, qPush_content hw b h, (qPush_rc_ok_iff b).mpr h, h]
  | pushMany bs =>
    by_cases h1 : c.val < bs.length
    · simp [ringOp, listOp, qPushMany_of_tooMany bs h1, h1]
    · by_cases h2 : c.val < q.len.toNat + bs.length
      · simp [ringOp, listOp, qPushMany_of_full bs (by omega) h2, h1, h2]
      · have hroom : q.len.toNat + bs.length ≤ c.val := by omega
        simp [ringOp, listOp, qPushMany_content hw bs hroom, (qPushMany_rc_ok_iff bs).mpr hroom, h1, h2]
  | pop =>
    by_cases h : q.len = 0#16
    · simp [ringOp, listOp, qPop_of_empty h, content_eq_nil_iff.mpr h, zext16]
    · simp [ringOp, listOp, qPop_content hw h, qPop_rc_ok_iff.mpr h]
  | popAll => simp [ringOp, listOp]
  | len => simp [ringOp, listOp, qLen]
  | front =>
    by_cases h : q.len = 0#16
    · simp [ringOp, listOp, qFront_of_empty h, content_eq_nil_iff.mpr h, zext16]
    · obtain ⟨hok, hhead⟩ := qFront_content hw h
      obtain ⟨l, hl⟩ := List.head?_eq_some_iff.mp hhead
      simp [ringOp, listOp, hok, hl]
  | back =>
    by_cases h : q.len = 0#16
    · simp [ringOp, listOp, qBack_of_empty h, content_eq_nil_iff.mpr h, zext16]
    · obtain ⟨hok, hlast⟩ := qBack_content (c := c) h
      simp [ringOp, listOp, hok, hlast]

/-- Settles O21, by induction on the operations with `ringOp_refines` for each. -/
theorem ringBufferRefinesTheListFifo : Obligations.RingBufferRefinesTheListFifo := by
  intro c q ops hw
  induction ops generalizing q with
  | nil => exact ⟨rfl, rfl, hw⟩
  | cons op ops ih =>
    obtain ⟨hanswer, hcontent⟩ := ringOp_refines hw op
    obtain ⟨hanswers, hfinal, hwf⟩ := ih _ (ringOp_wf hw op)
    rw [hcontent] at hanswers hfinal
    exact ⟨by simp [runRing, runList, hanswer, hanswers], hfinal, hwf⟩

/-- One operation other than `q_pop_all` neither loses nor reorders a byte. -/
theorem content_append_addedBy (hw : q.Wf c) {op : QOp} (hne : op ≠ .popAll) :
    q.content c ++ addedBy c q op = removedBy c q op ++ (ringOp c q op).2.content c := by
  cases op with
  | push b =>
    by_cases h : q.len.toNat = c.val
    · simp [addedBy, removedBy, ringOp, qPush_of_full b h]
    · simp [addedBy, removedBy, ringOp, qPush_content hw b h, (qPush_rc_ok_iff b).mpr h]
  | pushMany bs =>
    by_cases h : q.len.toNat + bs.length ≤ c.val
    · simp [addedBy, removedBy, ringOp, qPushMany_content hw bs h, (qPushMany_rc_ok_iff bs).mpr h]
    · simp [addedBy, removedBy, ringOp, qPushMany_queue_of_no_room bs h, mt (qPushMany_rc_ok_iff bs).mp h]
  | pop =>
    by_cases h : q.len = 0#16
    · simp [addedBy, removedBy, ringOp, qPop_of_empty h]
    · simp [addedBy, removedBy, ringOp, qPop_content hw h, qPop_rc_ok_iff.mpr h]
  | popAll => exact absurd rfl hne
  | len => simp [addedBy, removedBy, ringOp]
  | front => simp [addedBy, removedBy, ringOp]
  | back => simp [addedBy, removedBy, ringOp]

/-- Settles O22, by induction on the operations: `content_append_addedBy` moves each operation's bytes to the front, and
`q_pop_all` only drops bytes, which a subsequence allows. -/
theorem bytesComeOutInTheOrderTheyWereAdded : Obligations.BytesComeOutInTheOrderTheyWereAdded := by
  intro c q ops hw
  induction ops generalizing q with
  | nil => simp [removed, added, runRing]
  | cons op ops ih =>
    obtain ⟨hsub, hall⟩ := ih _ (ringOp_wf hw op)
    simp only [added, removed, runRing]
    constructor
    · by_cases hop : op = .popAll
      · subst hop
        have hsub' : (removed c (qPopAll q) ops).Sublist (added c (qPopAll q) ops) := by simpa [ringOp] using hsub
        exact hsub'.trans (List.sublist_append_right _ _)
      · rw [← List.append_assoc, content_append_addedBy hw hop, List.append_assoc]
        exact hsub.append_left _
    · intro hno
      obtain ⟨hop, hops⟩ : op ≠ .popAll ∧ QOp.popAll ∉ ops := by simpa [eq_comm] using hno
      rw [← List.append_assoc, content_append_addedBy hw hop, List.append_assoc, hall hops, List.append_assoc]

/-! ## The reset values, and the commands that read a flag or a status and that swap the enable -/

/-- Settles O1. -/
theorem powerOnStateIsTheResetTable : Obligations.PowerOnStateIsTheResetTable := by
  refine ⟨fun p => ⟨?_, rfl⟩, fun s h => ⟨fun id => ?_, ?_, h.ie, ?_, ?_⟩⟩
  · have hq (c : Capacity) : (Queue.reset c).IsReset c := ⟨List.length_replicate, rfl, rfl⟩
    exact ⟨hq _, hq _, hq _, hq _, rfl, rfl, rfl, rfl, rfl, rfl, rfl, rfl, rfl⟩
  · obtain ⟨-, hf, hl⟩ := isReset_queue h id
    have hpos := Capacity_pos (s.cap id)
    refine ⟨hf, hl, by simp [Queue.isEmpty, hl], ?_⟩
    simp [Queue.isFull, hl]
    omega
  · exact forall_channel.mpr ⟨by simp [State.statusCode, State.statusIsIdle, h.busStatus, BusStatus.code],
      by simp [State.statusCode, State.statusIsIdle, h.uartStatus, UartStatus.code]⟩
  · exact forall_eventSource.mpr ⟨h.pendBus, h.pendUtx, h.pendUrx⟩
  · exact forall_txPath.mpr ⟨h.phyBusyBus, h.phyBusyUtx⟩

/-- The OK response that carries a flag is the word 1 or 0 (R77), as what the flag stands for holds or not. -/
theorem responseWord_ok_flagHalf {v : Bool} {P : Prop} [Decidable P] (h : v = true ↔ P) :
    responseWord .ok (flagHalf v) = if P then 1#32 else 0#32 := by
  by_cases hP : P
  · rw [h.mpr hP, if_pos hP]; rfl
  · rw [Bool.eq_false_iff.mpr (mt h.mp hP), if_neg hP]; rfl

/-- Settles O20. -/
theorem flagTestsAnswerTheDerivedFlags : Obligations.FlagTestsAnswerTheDerivedFlags := by
  refine fun id s => ⟨⟨_, exec_isEmpty id, keepsAllBut_emit id _, by simp, ?_⟩,
    ⟨_, exec_isFull id, keepsAllBut_emit id _, by simp, ?_⟩, ?_⟩
  · rw [respond_eq, emit_out, responseWord_ok_flagHalf (P := s.content id = []) isEmpty_iff]
  · rw [respond_eq, emit_out, responseWord_ok_flagHalf (P := (s.content id).length = (s.cap id).val) isFull_iff]
  · rintro ⟨hnil, hfull⟩
    have hpos := Capacity_pos (s.cap id)
    rw [hnil, List.length_nil] at hfull
    omega

/-- Settles O24: the response carries the code of R28 or R29, and nothing but the observation changes. -/
theorem readStatusAnswersTheStatusRegister : Obligations.ReadStatusAnswersTheStatusRegister := by
  intro ch s
  refine ⟨_, exec_readStatus ch, by simp, by simp [keepsStatus_iff], by simp [keepsLatches_iff],
    by simp [keepsInputs_iff], ?_⟩
  simp only [respond_eq, emit_out, responseWord_ok_zext16]
  cases ch with
  | bus => cases h : s.busStatus <;> simp [State.statusCode, BusStatus.code, h]
  | uart => cases h : s.uartStatus <;> simp [State.statusCode, UartStatus.code, h]

/-- Settles O26. -/
theorem ieswapSwapsTheEnable : Obligations.IeswapSwapsTheEnable := by
  intro v s
  exact ⟨_, exec_ieswap v, by simp, by simp, by simp [keepsStatus_iff], by simp, by simp, by simp [keepsInputs_iff],
    by simp [responseWord_ok_flagHalf (Iff.refl (s.ie = true))]⟩

/-! ## Who writes a status, a latch and the enable -/

/-- Every command but TRANSMIT and INIT leaves both statuses and the pending latches. -/
theorem exec_cases_of_status_pend {i : Instr} (h : exec i s = .next t) :
    (∃ ch b, i = .transmit ch b ∧ t = (transmitEffect ch b s).respond .ok 0#16) ∨
    (∃ ch, i = .init ch ∧ t = (initEffect ch s).respond .ok 0#16) ∨
    (KeepsStatus s t ∧ ∀ e, t.pend e = s.pend e) := by
  cases i
  case transmit ch b => exact .inl ⟨ch, b, rfl, (Host.Outcome.next.inj h).symm⟩
  case init ch => exact .inr (.inl ⟨ch, rfl, (Host.Outcome.next.inj h).symm⟩)
  all_goals
    cases h
    simp [keepsStatus_iff]

/-- INIT clears the pending latches of its channel and leaves the others (R142). -/
theorem initEffect_pend (ch : Channel) (e : EventSource) :
    (initEffect ch s).pend e =
      match ch with
      | .bus => if e = .busEv then false else s.pend e
      | .uart => if e = .utxEv ∨ e = .urxEv then false else s.pend e := by
  cases ch <;> cases e <;> simp [initEffect, clearPend]

/-- TRANSMIT sets one latch, when the queue has room and the status is idle, and leaves the others (R140). -/
theorem transmitEffect_pend (ch : Channel) (b : Byte) (e : EventSource) :
    (transmitEffect ch b s).pend e =
      if e = txev ch ∧ s.statusIsIdle ch = true ∧ (s.queue (txq ch)).len.toNat ≠ (s.cap (txq ch)).val then true
      else s.pend e := by
  by_cases hfull : (s.queue (txq ch)).len.toNat = (s.cap (txq ch)).val
  · rw [transmitEffect_of_full ch b hfull]
    cases ch <;> simp [hfull]
  · rw [transmitEffect_of_room ch b hfull]
    by_cases hidle : s.statusIsIdle ch = true <;> simp [hfull, hidle]

/-- Settles O28: only TRANSMIT and INIT touch a latch, and each as `transmitEffect_pend` and `initEffect_pend` say. -/
theorem onlyTransmitArmsAndOnlyInitDisarms : Obligations.OnlyTransmitArmsAndOnlyInitDisarms := by
  intro i s t e h
  rcases exec_cases_of_status_pend h with ⟨ch, b, rfl, rfl⟩ | ⟨ch, rfl, rfl⟩ | ⟨-, hkeep⟩
  · rw [respond_eq, emit_pend, transmitEffect_pend]
    refine ⟨fun hclear hset => ?_, fun hset hclear => ?_⟩
    · by_cases hc : e = txev ch ∧ s.statusIsIdle ch = true ∧ (s.queue (txq ch)).len.toNat ≠ (s.cap (txq ch)).val
      · exact ⟨ch, b, rfl, hc⟩
      · rw [if_neg hc, hclear] at hset; cases hset
    · simp [hset] at hclear
  · rw [respond_eq, emit_pend, initEffect_pend]
    cases ch <;> cases e <;> simp +contextual
  · rw [hkeep e]
    exact ⟨fun hclear hset => by simp [hclear] at hset, fun hset hclear => by simp [hset] at hclear⟩

/-- TRANSMIT on a channel whose send queue has room leaves both statuses (R140). -/
theorem transmitEffect_keepsStatus (ch : Channel) (b : Byte)
    (h : (s.queue (txq ch)).len.toNat ≠ (s.cap (txq ch)).val) : KeepsStatus s (transmitEffect ch b s) := by
  rw [transmitEffect_of_room ch b h]
  split <;> simp [keepsStatus_iff]

/-- Settles O29: TRANSMIT writes a status only on a full queue, INIT writes its channel's, the others write none. -/
theorem onlyFullTransmitAndInitWriteAStatus : Obligations.OnlyFullTransmitAndInitWriteAStatus := by
  intro i s t h
  rcases exec_cases_of_status_pend h with ⟨ch, b, rfl, rfl⟩ | ⟨ch, rfl, rfl⟩ | ⟨hkeep, -⟩
  · by_cases hfull : (s.queue (txq ch)).len.toNat = (s.cap (txq ch)).val
    · rw [transmitEffect_of_full ch b hfull]
      cases ch
      · exact ⟨fun _ => .inl ⟨b, rfl, hfull, rfl⟩, fun hne => absurd rfl hne⟩
      · exact ⟨fun hne => absurd rfl hne, fun _ => .inl ⟨b, rfl, hfull, rfl⟩⟩
    · obtain ⟨hb, hu⟩ := transmitEffect_keepsStatus ch b hfull
      simp [hb, hu]
  · cases ch <;> simp [initEffect, clearPend]
  · simp [hkeep.bus, hkeep.uart]

/-- TRANSMIT leaves IE and the busy latches (R140). -/
theorem transmitEffect_keeps (ch : Channel) (b : Byte) :
    (transmitEffect ch b s).ie = s.ie ∧ ∀ p, (transmitEffect ch b s).phyBusy p = s.phyBusy p := by
  by_cases h : (s.queue (txq ch)).len.toNat = (s.cap (txq ch)).val
  · rw [transmitEffect_of_full ch b h]; cases ch <;> simp
  · rw [transmitEffect_of_room ch b h]; split <;> simp

/-- INIT leaves IE and the busy latches (R142). -/
theorem initEffect_keeps (ch : Channel) :
    (initEffect ch s).ie = s.ie ∧ ∀ p, (initEffect ch s).phyBusy p = s.phyBusy p := by
  cases ch <;> simp [initEffect, clearPend]

/-- No command touches a busy latch, and only IESWAP writes the enable: it writes its operand. -/
theorem exec_phyBusy_ie {i : Instr} (h : exec i s = .next t) :
    (∀ p, t.phyBusy p = s.phyBusy p) ∧ (i = .ieswap t.ie ∨ t.ie = s.ie) := by
  cases i <;> cases h
  case transmit ch b => simp [transmitEffect_keeps]
  case init ch => simp [initEffect_keeps]
  all_goals simp

/-- Settles O44: a dispatch keeps IE with the port, so of all steps only FG's command can change it. -/
theorem onlyIeswapChangesTheEnable : Obligations.OnlyIeswapChangesTheEnable := by
  intro s t h hne
  rcases step_cases h with ⟨-, -, rfl⟩ | ⟨hm, hd, payload, rest, i, hf, hdec, he⟩ |
    ⟨-, hd, payload, rest, why, -, -, rfl⟩ | ⟨e, d, -, -, rfl⟩ | ⟨e, d, -, -, rfl⟩ | ⟨p, -, -, rfl⟩ |
    ⟨p, -, -, rfl⟩ | ⟨-, rfl⟩
  case inr.inl =>
    rcases (exec_phyBusy_ie he).2 with rfl | hie
    · exact ⟨hm, hd, payload, rest, hf, hdec⟩
    · exact absurd (by simpa using hie) hne
  case inr.inr.inr.inl => exact absurd (by simpa using (dispatch_keepsPort e d (afterChoice s)).ie) hne
  all_goals exact absurd (by simp) hne

/-- Settles O39: with IE 0 no dispatch is enabled, and a completion or an arrival only sets a latch (R204). -/
theorem noHandlerRunsWhileMasked : Obligations.NoHandlerRunsWhileMasked := by
  constructor
  · intro s t hie h hm
    rcases step_cases_of_not_fg h hm with ⟨e, d, hc, -⟩ | ⟨p, rfl⟩ | rfl | rfl
    · obtain ⟨hie', -⟩ := (canDispatch_iff s e).mp hc
      simp [hie] at hie'
    · simp +contextual [complete, keepsStatus_iff, hie]
    · simp +contextual [arrive, keepsStatus_iff, hie]
    · simp [keepsStatus_iff, hie]
  · intro s t h e hp ha
    rw [exec_ieswap, Host.Outcome.next.injEq] at h
    subst h
    exact (canDispatch_iff _ e).mpr ⟨by simp, by simpa using hp, by simpa [ArbAllowed] using ha⟩

/-! ## The busy latches -/

/-- Nothing is written and the busy latches are unchanged, or one byte is written and its path becomes busy (R166). -/
def WritesAtMostOnce (s t : State) : Prop :=
  t.out = s.out ∧ (∀ p, t.phyBusy p = s.phyBusy p) ∨
    ∃ ch b, t.out = s.out ++ [.write ch b] ∧ ∀ p, t.phyBusy p = (s.setPhyBusy (pathOf ch) true).phyBusy p

theorem busSend_writesAtMostOnce (s : State) : WritesAtMostOnce s (busSend s) := by
  by_cases h : s.btx.len = 0#16
  · rw [busSend_of_empty h]; exact .inl (by simp)
  · rw [busSend_of_some h]
    exact .inr ⟨.bus, (qPop s.params.cBtx s.btx).2.1, by simp, by simp [pathOf]⟩

theorem utxSend_writesAtMostOnce (err : Option UartStatus) (s : State) : WritesAtMostOnce s (utxSend err s) := by
  by_cases h : s.utx.len = 0#16
  · rw [utxSend_of_empty err h]; exact .inl (by simp)
  · rw [utxSend_of_some err h]
    exact .inr ⟨.uart, (qPop s.params.cUtx s.utx).2.1, by simp, by simp [pathOf]⟩

theorem dispatch_writesAtMostOnce (e : EventSource) (d : Draws) (s : State) :
    WritesAtMostOnce s (dispatch e d s) := by
  cases e with
  | busEv =>
    rw [dispatch_busEv]
    rcases busHandler_cases d (s.setPend .busEv false) with h | h | h | h <;> rw [h]
    · exact .inl (by simp)
    · exact .inl (by simp)
    · simpa [WritesAtMostOnce] using
        busSend_writesAtMostOnce ((s.setPend .busEv false).setQueue .brx (qPush s.params.cBrx s.brx d.busRx).2)
    · simpa [WritesAtMostOnce] using busSend_writesAtMostOnce (s.setPend .busEv false)
  | utxEv =>
    rw [dispatch_utxEv]
    rcases utxHandler_cases d (s.setPend .utxEv false) with ⟨err, h, -⟩ | ⟨err, h, -⟩ <;> rw [h]
    · exact .inl (by simp)
    · simpa [WritesAtMostOnce] using utxSend_writesAtMostOnce err (s.setPend .utxEv false)
  | urxEv =>
    rw [dispatch_urxEv]
    rcases urxHandler_cases d (s.setPend .urxEv false) with ⟨v, h, -⟩ | h <;> rw [h] <;> exact .inl (by simp)

/-- Settles O43: only the write of a dispatch sets a busy latch, only a completion clears one. -/
theorem busyLatchFollowsWriteAndCompletion : Obligations.BusyLatchFollowsWriteAndCompletion := by
  intro s t p h
  rcases step_cases h with ⟨-, -, rfl⟩ | ⟨-, hd, payload, rest, i, -, -, he⟩ |
    ⟨-, hd, payload, rest, why, -, -, rfl⟩ | ⟨e, d, -, -, rfl⟩ | ⟨e, d, -, -, rfl⟩ | ⟨p', hm, -, rfl⟩ |
    ⟨p', -, -, rfl⟩ | ⟨-, rfl⟩
  case inr.inl => simp +contextual [(exec_phyBusy_ie he).1]
  case inr.inr.inr.inl =>
    rcases dispatch_writesAtMostOnce e d (afterChoice s) with ⟨-, hkeep⟩ | ⟨ch, b, hout, hbusy⟩
    · simp +contextual [hkeep]
    · rw [hbusy p, setPhyBusy_phyBusy]
      by_cases hp : p = pathOf ch
      · exact ⟨fun _ _ => ⟨ch, b, hp, by simpa using hout⟩, by simp [hp]⟩
      · simp +contextual [hp]
  case inr.inr.inr.inr.inr.inl =>
    by_cases hp : p = p'
    · simp [hp, hm]
    · simp +contextual [hp]
  all_goals simp +contextual

/-! ## What the handlers do to the queues -/

/-- On both channels bytes only leave the front of the send queue and only join the back of the receive queue. -/
def DrainsAndFills (s t : State) : Prop :=
  ∀ ch, t.content (txq ch) <:+ s.content (txq ch) ∧ s.content (rxq ch) <+: t.content (rxq ch)

theorem drainsAndFills_of_same (h : ∀ id, t.content id = s.content id) : DrainsAndFills s t :=
  fun ch => by simp [h]

theorem drainsAndFills_trans {u : State} (h : DrainsAndFills s t) (h' : DrainsAndFills t u) : DrainsAndFills s u :=
  fun ch => ⟨(h' ch).1.trans (h ch).1, (h ch).2.trans (h' ch).2⟩

theorem drainsAndFills_pop (hi : s.Inv) (ch : Channel) (hne : (s.queue (txq ch)).len ≠ 0#16) :
    DrainsAndFills s (s.setQueue (txq ch) (qPop (s.cap (txq ch)) (s.queue (txq ch))).2.2) := by
  have hpop : (qPop (s.cap (txq ch)) (s.queue (txq ch))).2.2.content (s.cap (txq ch)) <:+ s.content (txq ch) := by
    rw [content_def, qPop_content (inv_iff.mp hi (txq ch)) hne]
    exact List.suffix_cons _ _
  cases ch <;> exact forall_channel.mpr (by simpa [txq, rxq] using hpop)

theorem drainsAndFills_push (hi : s.Inv) (ch : Channel) (b : Byte) :
    DrainsAndFills s (s.setQueue (rxq ch) (qPush (s.cap (rxq ch)) (s.queue (rxq ch)) b).2) := by
  have hpush : s.content (rxq ch) <+: (qPush (s.cap (rxq ch)) (s.queue (rxq ch)) b).2.content (s.cap (rxq ch)) := by
    by_cases h : (s.queue (rxq ch)).len.toNat = (s.cap (rxq ch)).val
    · rw [qPush_of_full b h]; exact ⟨[], List.append_nil _⟩
    · rw [qPush_content (inv_iff.mp hi (rxq ch)) b h]; exact ⟨[b], rfl⟩
  cases ch <;> exact forall_channel.mpr (by simpa [txq, rxq] using hpush)

theorem busSend_drainsAndFills (hi : s.Inv) : DrainsAndFills s (busSend s) := by
  by_cases h : s.btx.len = 0#16
  · rw [busSend_of_empty h]; exact drainsAndFills_of_same (by simp)
  · rw [busSend_of_some h]
    exact drainsAndFills_trans (drainsAndFills_pop hi .bus h) (drainsAndFills_of_same (by simp [txq]))

theorem utxSend_drainsAndFills (err : Option UartStatus) (hi : s.Inv) : DrainsAndFills s (utxSend err s) := by
  by_cases h : s.utx.len = 0#16
  · rw [utxSend_of_empty err h]; exact drainsAndFills_of_same (by simp)
  · rw [utxSend_of_some err h]
    exact drainsAndFills_trans (drainsAndFills_pop hi .uart h) (drainsAndFills_of_same (by simp [txq]))

theorem dispatch_drainsAndFills (e : EventSource) (d : Draws) (hi : s.Inv) : DrainsAndFills s (dispatch e d s) := by
  have hi' : (s.setPend e false).Inv := inv_of_same_queues hi (by simp) (by simp)
  refine drainsAndFills_trans (t := s.setPend e false) (drainsAndFills_of_same (by simp)) ?_
  cases e with
  | busEv =>
    rw [dispatch_busEv]
    rcases busHandler_cases d (s.setPend .busEv false) with h | h | h | h <;> rw [h]
    · exact drainsAndFills_of_same (by simp)
    · exact drainsAndFills_of_same (by simp)
    · exact drainsAndFills_trans (drainsAndFills_push hi' .bus _)
        (busSend_drainsAndFills (inv_setQueue hi' .brx (qPush_wf (inv_iff.mp hi' .brx) _)))
    · exact busSend_drainsAndFills hi'
  | utxEv =>
    rw [dispatch_utxEv]
    rcases utxHandler_cases d (s.setPend .utxEv false) with ⟨err, h, -⟩ | ⟨err, h, -⟩ <;> rw [h]
    · exact drainsAndFills_of_same (by simp)
    · exact utxSend_drainsAndFills err hi'
  | urxEv =>
    rw [dispatch_urxEv]
    rcases urxHandler_cases d (s.setPend .urxEv false) with ⟨v, h, -⟩ | h <;> rw [h]
    · exact drainsAndFills_of_same (by simp)
    · exact drainsAndFills_push hi' .uart _

/-- Settles O45: a dispatch drains and fills, and the other steps that are not FG's leave every content. -/
theorem handlersDrainSendQueuesAndFillReceiveQueues : Obligations.HandlersDrainSendQueuesAndFillReceiveQueues := by
  intro s t hi h hm
  refine drainsAndFills_trans (t := afterChoice s) (drainsAndFills_of_same (by simp)) ?_
  rcases step_cases_of_not_fg h hm with ⟨e, d, -, rfl⟩ | ⟨p, rfl⟩ | rfl | rfl
  · exact dispatch_drainsAndFills e d (afterChoice_inv hi)
  · exact drainsAndFills_of_same (by simp [complete])
  · exact drainsAndFills_of_same (by simp [arrive])
  · exact drainsAndFills_of_same (by simp)

/-! ## front and the cells outside the content are unobservable -/

/-- Two queues with their invariant that stand for the same list. -/
structure Queue.Alike (c : Capacity) (q r : Queue) : Prop where
  wf : q.Wf c
  wf' : r.Wf c
  content : q.content c = r.content c

/-- The state with all four queues replaced. -/
def State.withQueues (s : State) (f : QueueId → Queue) : State :=
  { s with btx := f .btx, brx := f .brx, utx := f .utx, urx := f .urx }

/-- `s'` is `s` with its queues replaced by queues alike: both have the queue invariant, and only `front` and the cells
outside each content may differ. -/
def State.Alike (s s' : State) : Prop :=
  ∃ f, s' = s.withQueues f ∧ ∀ id, (s.queue id).Alike (s.cap id) (f id)

@[simp] theorem withQueues_queue (s : State) (f : QueueId → Queue) (id : QueueId) :
    (s.withQueues f).queue id = f id := by cases id <;> rfl

theorem withQueues_of_obsEq (h : ObsEq s s') : s' = s.withQueues s'.queue := by
  obtain ⟨-, -, -, -, ⟨hbus, huart⟩, ⟨hie, hpend, hbusy⟩, ⟨hparams, hfg, hsched, htick⟩, hout⟩ := h
  rw [forall_eventSource] at hpend
  rw [forall_txPath] at hbusy
  cases s
  cases s'
  simp_all [State.withQueues]

theorem alike_of_obsEq (hi : s.Inv) (hi' : s'.Inv) (h : ObsEq s s') : s.Alike s' := by
  have hcap (id : QueueId) : s'.cap id = s.cap id := by simp [State.cap, h.inputs.params]
  have hcontent : ∀ id, (s.queue id).ObsEq (s.cap id) (s'.queue id) :=
    forall_queueId.mpr ⟨h.btx, h.brx, h.utx, h.urx⟩
  exact ⟨s'.queue, withQueues_of_obsEq h, fun id => ⟨inv_iff.mp hi id, hcap id ▸ inv_iff.mp hi' id, hcontent id⟩⟩

theorem obsEq_of_alike (h : s.Alike s') : ObsEq s s' := by
  obtain ⟨f, rfl, hf⟩ := h
  exact ⟨(hf .btx).content, (hf .brx).content, (hf .utx).content, (hf .urx).content, ⟨rfl, rfl⟩,
    ⟨rfl, fun e => by cases e <;> rfl, fun p => by cases p <;> rfl⟩, ⟨rfl, rfl, rfl, rfl⟩, rfl⟩

/-! ### The queue primitives on queues alike -/

/-- Every primitive answers the same on two queues alike and leaves them alike: both refine one list. -/
theorem ringOp_alike (h : q.Alike c r) (op : QOp) :
    (ringOp c r op).1 = (ringOp c q op).1 ∧ (ringOp c q op).2.Alike c (ringOp c r op).2 := by
  obtain ⟨hans, hcon⟩ := ringOp_refines h.wf op
  obtain ⟨hans', hcon'⟩ := ringOp_refines h.wf' op
  rw [← h.content] at hans' hcon'
  exact ⟨hans'.trans hans.symm, ringOp_wf h.wf op, ringOp_wf h.wf' op, hcon.trans hcon'.symm⟩

theorem zext16_injective {a b : Byte} (h : zext16 a = zext16 b) : a = b := by
  simpa [zext16] using congrArg (BitVec.setWidth 8) h

theorem len_of_alike (h : q.Alike c r) : r.len = q.len := (Prod.mk.inj (ringOp_alike h .len).1).2

theorem qPush_alike (h : q.Alike c r) (b : Byte) :
    (qPush c r b).1 = (qPush c q b).1 ∧ (qPush c q b).2.Alike c (qPush c r b).2 :=
  (ringOp_alike h (.push b)).imp (fun hans => (Prod.mk.inj hans).1) id

theorem qPushMany_alike (h : q.Alike c r) (bs : List Byte) :
    (qPushMany c r bs).1 = (qPushMany c q bs).1 ∧ (qPushMany c q bs).2.Alike c (qPushMany c r bs).2 :=
  (ringOp_alike h (.pushMany bs)).imp (fun hans => (Prod.mk.inj hans).1) id

theorem qPop_alike (h : q.Alike c r) :
    (qPop c r).1 = (qPop c q).1 ∧ (qPop c r).2.1 = (qPop c q).2.1 ∧ (qPop c q).2.2.Alike c (qPop c r).2.2 := by
  obtain ⟨hans, halike⟩ := ringOp_alike h .pop
  obtain ⟨hrc, hbyte⟩ := Prod.mk.inj hans
  exact ⟨hrc, zext16_injective hbyte, halike⟩

theorem qPopAll_alike (h : q.Alike c r) : (qPopAll q).Alike c (qPopAll r) := (ringOp_alike h .popAll).2

theorem qFront_alike (h : q.Alike c r) : (qFront r).1 = (qFront q).1 ∧ (qFront r).2 = (qFront q).2 :=
  (Prod.mk.inj (ringOp_alike h .front).1).imp id zext16_injective

theorem qBack_alike (h : q.Alike c r) : (qBack c r).1 = (qBack c q).1 ∧ (qBack c r).2 = (qBack c q).2 :=
  (Prod.mk.inj (ringOp_alike h .back).1).imp id zext16_injective

/-! ### What states alike have in common -/

section
variable (h : s.Alike s')
include h

theorem alike_cap (id : QueueId) : s'.cap id = s.cap id := by obtain ⟨f, rfl, -⟩ := h; rfl
theorem alike_busStatus : s'.busStatus = s.busStatus := by obtain ⟨f, rfl, -⟩ := h; rfl
theorem alike_params : s'.params = s.params := by obtain ⟨f, rfl, -⟩ := h; rfl
theorem alike_ie : s'.ie = s.ie := by obtain ⟨f, rfl, -⟩ := h; rfl
theorem alike_fg : s'.fg = s.fg := by obtain ⟨f, rfl, -⟩ := h; rfl
theorem alike_statusCode (ch : Channel) : s'.statusCode ch = s.statusCode ch := by
  obtain ⟨f, rfl, -⟩ := h; cases ch <;> rfl
theorem alike_statusIsIdle (ch : Channel) : s'.statusIsIdle ch = s.statusIsIdle ch := by
  obtain ⟨f, rfl, -⟩ := h; cases ch <;> rfl
theorem alike_phyBusy (p : TxPath) : s'.phyBusy p = s.phyBusy p := by obtain ⟨f, rfl, -⟩ := h; cases p <;> rfl
theorem alike_nextMove : nextMove s' = nextMove s := by obtain ⟨f, rfl, -⟩ := h; rfl
theorem alike_canDispatch (e : EventSource) : canDispatch s' e = canDispatch s e := by
  obtain ⟨f, rfl, -⟩ := h; cases e <;> rfl

theorem alike_queue (id : QueueId) : (s.queue id).Alike (s.cap id) (s'.queue id) := by
  obtain ⟨f, rfl, hf⟩ := h
  simpa using hf id

/-! ### Updates keep states alike -/

theorem alike_setQueue (id : QueueId) {q r : Queue} (hq : q.Alike (s.cap id) r) :
    (s.setQueue id q).Alike (s'.setQueue id r) := by
  obtain ⟨f, rfl, hf⟩ := h
  refine ⟨Function.update f id r, by cases id <;> rfl, fun id' => ?_⟩
  by_cases hid : id' = id
  · subst hid; simpa using hq
  · simpa [hid] using hf id'

/-- An update that reads and writes no queue and no parameter keeps states alike. -/
theorem alike_map {u : State → State} (hcomm : ∀ f, u (s.withQueues f) = (u s).withQueues f)
    (hqueue : ∀ id, (u s).queue id = s.queue id) (hparams : (u s).params = s.params) : (u s).Alike (u s') := by
  obtain ⟨f, rfl, hf⟩ := h
  exact ⟨f, hcomm f, fun id => by simpa [State.cap, hqueue, hparams] using hf id⟩

theorem alike_emit (o : Output) : (s.emit o).Alike (s'.emit o) :=
  alike_map h (u := (·.emit o)) (fun _ => rfl) (by simp) (by simp)

theorem alike_setPend (e : EventSource) (v : Bool) : (s.setPend e v).Alike (s'.setPend e v) :=
  alike_map h (u := (·.setPend e v)) (fun _ => by cases e <;> rfl) (by simp) (by simp)

theorem alike_setPhyBusy (p : TxPath) (v : Bool) : (s.setPhyBusy p v).Alike (s'.setPhyBusy p v) :=
  alike_map h (u := (·.setPhyBusy p v)) (fun _ => by cases p <;> rfl) (by simp) (by simp)

theorem alike_setBusStatus (v : BusStatus) : (s.setBusStatus v).Alike (s'.setBusStatus v) :=
  alike_map h (u := (·.setBusStatus v)) (fun _ => rfl) (by simp) (by simp)

theorem alike_setUartStatus (v : UartStatus) : (s.setUartStatus v).Alike (s'.setUartStatus v) :=
  alike_map h (u := (·.setUartStatus v)) (fun _ => rfl) (by simp) (by simp)

theorem alike_setIe (v : Bool) : (s.setIe v).Alike (s'.setIe v) :=
  alike_map h (u := (·.setIe v)) (fun _ => rfl) (by simp) (by simp)

theorem alike_setFg (ws : List Word) : (s.setFg ws).Alike (s'.setFg ws) :=
  alike_map h (u := (·.setFg ws)) (fun _ => rfl) (by simp) (by simp)

theorem alike_afterChoice : (afterChoice s).Alike (afterChoice s') := by
  refine alike_map h (u := afterChoice) (fun f => ?_) (by simp) (by simp)
  cases hs : s.sched <;> simp [afterChoice, State.withQueues, hs] <;> rfl

theorem alike_clearPend (ch : Channel) : (clearPend s ch).Alike (clearPend s' ch) := by
  cases ch
  · exact alike_setPend h .busEv false
  · exact alike_setPend (alike_setPend h .utxEv false) .urxEv false

theorem alike_setIdle (ch : Channel) : (s.setIdle ch).Alike (s'.setIdle ch) := by
  cases ch
  · exact alike_setBusStatus h _
  · exact alike_setUartStatus h _

theorem alike_setOverflow (ch : Channel) : (s.setOverflow ch).Alike (s'.setOverflow ch) := by
  cases ch
  · exact alike_setBusStatus h _
  · exact alike_setUartStatus h _

/-! ### Commands and handlers on states alike -/

theorem alike_transmitEffect (ch : Channel) (b : Byte) :
    (transmitEffect ch b s).Alike (transmitEffect ch b s') := by
  obtain ⟨hrc, hpush⟩ := qPush_alike (alike_queue h (txq ch)) b
  have hset := alike_setQueue h (txq ch) hpush
  simp only [transmitEffect, alike_cap h, hrc, alike_statusIsIdle h]
  split
  · exact alike_setOverflow h ch
  · split
    · exact alike_setPend hset _ _
    · exact hset

theorem alike_initEffect (ch : Channel) : (initEffect ch s).Alike (initEffect ch s') := by
  have htx := alike_setQueue h (txq ch) (qPopAll_alike (alike_queue h (txq ch)))
  have hrx := alike_setQueue htx (rxq ch) (q := qPopAll (s.queue (rxq ch)))
    (by simpa using qPopAll_alike (alike_queue h (rxq ch)))
  exact alike_clearPend (alike_setIdle hrx ch) ch

/-- A command on states alike answers the same response and leaves them alike. -/
theorem alike_exec (i : Instr) : ∃ t t', exec i s = .next t ∧ exec i s' = .next t' ∧ t.Alike t' := by
  cases i with
  | push q b =>
    obtain ⟨hrc, hq⟩ := qPush_alike (alike_queue h q) b
    refine ⟨_, _, exec_push q b, exec_push q b, ?_⟩
    rw [alike_cap h, hrc]
    exact alike_emit (alike_setQueue h q hq) _
  | pushMany q bs =>
    obtain ⟨hrc, hq⟩ := qPushMany_alike (alike_queue h q) bs
    refine ⟨_, _, exec_pushMany q bs, exec_pushMany q bs, ?_⟩
    rw [alike_cap h, hrc]
    exact alike_emit (alike_setQueue h q hq) _
  | pop q =>
    obtain ⟨hrc, hbyte, hq⟩ := qPop_alike (alike_queue h q)
    refine ⟨_, _, exec_pop q, exec_pop q, ?_⟩
    rw [alike_cap h, hrc, hbyte]
    exact alike_emit (alike_setQueue h q hq) _
  | popAll q =>
    refine ⟨_, _, exec_popAll q, exec_popAll q, ?_⟩
    exact alike_emit (alike_setQueue h q (qPopAll_alike (alike_queue h q))) _
  | len q =>
    refine ⟨_, _, exec_len q, exec_len q, ?_⟩
    rw [qLen, qLen, len_of_alike (alike_queue h q)]
    exact alike_emit h _
  | frontPeek q =>
    obtain ⟨hrc, hbyte⟩ := qFront_alike (alike_queue h q)
    refine ⟨_, _, exec_frontPeek q, exec_frontPeek q, ?_⟩
    rw [hrc, hbyte]
    exact alike_emit h _
  | backPeek q =>
    obtain ⟨hrc, hbyte⟩ := qBack_alike (alike_queue h q)
    refine ⟨_, _, exec_backPeek q, exec_backPeek q, ?_⟩
    rw [alike_cap h, hrc, hbyte]
    exact alike_emit h _
  | isEmpty q =>
    refine ⟨_, _, exec_isEmpty q, exec_isEmpty q, ?_⟩
    rw [Queue.isEmpty, Queue.isEmpty, len_of_alike (alike_queue h q)]
    exact alike_emit h _
  | isFull q =>
    refine ⟨_, _, exec_isFull q, exec_isFull q, ?_⟩
    rw [Queue.isFull, Queue.isFull, alike_cap h, len_of_alike (alike_queue h q)]
    exact alike_emit h _
  | transmit ch b =>
    exact ⟨_, _, exec_transmit ch b, exec_transmit ch b, alike_emit (alike_transmitEffect h ch b) _⟩
  | readStatus ch =>
    refine ⟨_, _, exec_readStatus ch, exec_readStatus ch, ?_⟩
    rw [alike_statusCode h]
    exact alike_emit h _
  | init ch => exact ⟨_, _, exec_init ch, exec_init ch, alike_emit (alike_initEffect h ch) _⟩
  | ieswap v =>
    refine ⟨_, _, exec_ieswap v, exec_ieswap v, ?_⟩
    rw [alike_ie h]
    exact alike_emit (alike_setIe h v) _

theorem alike_phyWrite (ch : Channel) (b : Byte) : (s.phyWrite ch b).Alike (s'.phyWrite ch b) :=
  alike_setPhyBusy (alike_emit h _) _ _

theorem alike_busSend : (busSend s).Alike (busSend s') := by
  obtain ⟨hrc, hbyte, hpop⟩ := qPop_alike (alike_queue h .btx)
  simp only [queue_btx] at hrc hbyte hpop
  simp only [busSend, alike_cap h, hrc, hbyte]
  split
  · exact alike_setBusStatus (alike_phyWrite (alike_setQueue h .btx hpop) _ _) _
  · exact alike_setBusStatus h _

theorem alike_utxSend (err : Option UartStatus) : (utxSend err s).Alike (utxSend err s') := by
  obtain ⟨hrc, hbyte, hpop⟩ := qPop_alike (alike_queue h .utx)
  simp only [queue_utx] at hrc hbyte hpop
  simp only [utxSend, alike_cap h, hrc, hbyte]
  split
  · exact alike_setUartStatus (alike_phyWrite (alike_setQueue h .utx hpop) _ _) _
  · exact alike_setUartStatus h _

theorem alike_busHandler (d : Draws) : (busHandler d s).Alike (busHandler d s') := by
  obtain ⟨hrc, hpush⟩ := qPush_alike (alike_queue h .brx) d.busRx
  simp only [queue_brx] at hrc hpush
  simp only [busHandler, alike_busStatus h, alike_cap h, hrc]
  split
  · exact alike_setBusStatus h _
  · split
    · split
      · exact alike_setBusStatus h _
      · exact alike_busSend (alike_setQueue h .brx hpush)
    · exact alike_busSend h

theorem alike_utxHandler (d : Draws) : (utxHandler d s).Alike (utxHandler d s') := by
  simp only [utxHandler, alike_params h]
  split
  · exact alike_utxSend h none
  · split
    · exact alike_setUartStatus h _
    · exact alike_utxSend h _

theorem alike_urxHandler (d : Draws) : (urxHandler d s).Alike (urxHandler d s') := by
  obtain ⟨hrc, hpush⟩ := qPush_alike (alike_queue h .urx) d.uartRx
  simp only [queue_urx] at hrc hpush
  simp only [urxHandler, alike_cap h, hrc]
  split_ifs
  · exact alike_setUartStatus h _
  · exact alike_setUartStatus h _
  · exact alike_setUartStatus h _
  · exact alike_setUartStatus h _
  · exact alike_setQueue h .urx hpush

theorem alike_dispatch (e : EventSource) (d : Draws) : (dispatch e d s).Alike (dispatch e d s') := by
  cases e
  · exact alike_busHandler (alike_setPend h .busEv false) d
  · exact alike_utxHandler (alike_setPend h .utxEv false) d
  · exact alike_urxHandler (alike_setPend h .urxEv false) d

/-! ### The agents and the step on states alike -/

theorem alike_fgStep : ∃ t t', fgStep s = .next t ∧ fgStep s' = .next t' ∧ t.Alike t' := by
  simp only [fgStep, alike_fg h]
  split
  · exact ⟨s, s', rfl, rfl, h⟩
  · rename_i hd payload rest _
    have haccept : (acceptCommand hd payload rest s).Alike (acceptCommand hd payload rest s') :=
      alike_emit (alike_setFg h rest) _
    split
    · exact alike_exec haccept _
    · exact ⟨_, _, rfl, rfl, alike_emit haccept _⟩

theorem alike_runMove (m : Move) : ∃ t t', runMove m s = .next t ∧ runMove m s' = .next t' ∧ t.Alike t' := by
  cases m with
  | fg => exact alike_fgStep h
  | dispatch e d =>
    refine ⟨_, _, rfl, rfl, ?_⟩
    rw [alike_canDispatch h]
    split
    · exact alike_dispatch h e d
    · exact h
  | complete p =>
    refine ⟨_, _, rfl, rfl, ?_⟩
    rw [alike_phyBusy h]
    split
    · exact alike_setPend (alike_setPhyBusy h p false) (evOf p) true
    · exact h
  | arrive => exact ⟨_, _, rfl, rfl, alike_setPend h .urxEv true⟩

theorem alike_step : ∃ t t', step s = .next t ∧ step s' = .next t' ∧ t.Alike t' := by
  rw [step, step, alike_nextMove h]
  exact alike_runMove (alike_afterChoice h) _

end

/-- Settles O52: the two states are alike, a step keeps states alike (`alike_step`), and FG cannot tell such apart. -/
theorem frontAndOutsideCellsAreUnobservable : Obligations.FrontAndOutsideCellsAreUnobservable := by
  intro s s' t hi hi' hobs h
  obtain ⟨u, t', hu, ht', halike⟩ := alike_step (alike_of_obsEq hi hi' hobs)
  rw [h, Host.Outcome.next.injEq] at hu
  subst hu
  exact ⟨t', ht', obsEq_of_alike halike⟩

end Sys2Proof.Machine

/-! PROOFS of the family 30_encoding: decoding and encoding are inverse (R71 to R76), the opcode map (R74), framing (R80),
the assembler (R81, R82), the one answer of every command (R77, R78, R191) and the steps of FG (R70, R84, R194). -/

namespace Sys2Proof

variable {h : Word} {payload : List Word} {i : Instr}

/-! ## What a framed command decodes to -/

theorem decode_eq_command_iff :
    decode h payload = .command i ↔ illegalReason h payload = none ∧ selectCommand h payload = some i := by
  cases hr : illegalReason h payload with
  | none =>
    obtain ⟨j, hsel, hdec⟩ := decode_of_legal h payload hr
    simp [hsel, hdec]
  | some why => simp [decode_of_illegal h payload why hr]

theorem decode_illegal_iff : (∃ why, decode h payload = .illegal why) ↔ illegalReason h payload ≠ none := by
  cases hr : illegalReason h payload with
  | none =>
    obtain ⟨j, -, hdec⟩ := decode_of_legal h payload hr
    simp [hdec]
  | some why => simp [decode_of_illegal h payload why hr]

/-! ## Decoding an encoding -/

theorem framedEncoding (i : Instr) : Laws.FramedEncoding.Statement i := by
  cases i
  case pushMany q bs => exact Laws.FramedEncoding.pushMany q bs
  all_goals exact Laws.FramedEncoding.oneWord _ _ _ _ (by decide) rfl

/-- The words of a command pass every test of R76: the fields its opcode does not use are 0. -/
theorem illegalReason_encode (he : encode i = h :: payload) : illegalReason h payload = none := by
  rw [illegalReason_eq_none_iff]
  cases i
  all_goals
    cases he
    simp

/-- The opcode of a command's header selects the command, and its fields are the operands (R74). -/
theorem selectCommand_encode (he : encode i = h :: payload) : selectCommand h payload = some i := by
  cases i
  all_goals
    cases he
    simp [selectCommand, Function.comp_def]

theorem decode_encode (he : encode i = h :: payload) : decode h payload = .command i :=
  decode_eq_command_iff.mpr ⟨illegalReason_encode he, selectCommand_encode he⟩

/-- Settles O6: the words are framed whatever follows them (`framedEncoding`) and decode to the command
(`decode_encode`). -/
theorem decodingAnEncodedCommandGivesItBack : Obligations.DecodingAnEncodedCommandGivesItBack := by
  intro i rest hw
  obtain ⟨h, payload, he, -, hframe⟩ := framedEncoding i hw
  simp [decodeStream, hframe rest, decode_encode he]

/-- Settles O8: seven of the words are encodings (`decode_encode`), and the zero word has a reserved opcode. -/
theorem specifiedHeaderWordsDecode : Obligations.SpecifiedHeaderWordsDecode :=
  ⟨decode_encode rfl, decode_encode rfl, decode_encode rfl, decode_encode rfl, decode_encode rfl, decode_encode rfl,
    decode_encode rfl, decode_of_illegal _ _ _ rfl⟩

/-! ## Encoding what was decoded -/

/-- A header with RSV = 0 is the header of its fields' values. -/
theorem mkHeader_eq {opc : BitVec 4} {ch dir : Bool} {imm : Half} (hr : hdrRsv h = 0#10) (ho : hdrOpc h = opc)
    (hc : hdrCh h = ch) (hd : hdrDir h = dir) (hi : hdrImm h = imm) : mkHeader opc ch dir imm = h := by
  subst ho hc hd hi
  exact mkHeader_fields h hr

/-- Only PUSH_MANY has payload words (R80). -/
theorem payload_eq_nil (hl : payload.length = payloadLength h) (ho : hdrOpc h ≠ 0x2#4) : payload = [] := by
  rw [payloadLength, if_neg ho] at hl
  exact List.eq_nil_of_length_eq_zero hl

theorem map_payloadWord_payloadByte (hz : ∀ w ∈ payload, payloadHigh w = 0#24) :
    (payload.map payloadByte).map payloadWord = payload := by
  rw [List.map_map]
  exact (List.map_congr_left fun w hw => payloadWord_payloadByte w (hz w hw)).trans (List.map_id payload)

/-- The opcode of a command (R74). -/
def Instr.opcode : Instr → BitVec 4
  | .push _ _ => 0x1#4
  | .pushMany _ _ => 0x2#4
  | .pop _ => 0x3#4
  | .popAll _ => 0x4#4
  | .len _ => 0x5#4
  | .frontPeek _ => 0x6#4
  | .backPeek _ => 0x7#4
  | .isEmpty _ => 0x8#4
  | .isFull _ => 0x9#4
  | .transmit _ _ => 0xA#4
  | .readStatus _ => 0xB#4
  | .init _ => 0xC#4
  | .ieswap _ => 0xD#4

theorem hdrOpc_of_selectCommand (hsel : selectCommand h payload = some i) : hdrOpc h = i.opcode := by
  simp only [selectCommand] at hsel
  split at hsel <;> cases hsel <;> exact BitVec.eq_of_toNat_eq ‹_›

/-- A command whose encoding is one header has the words of the header with those fields. -/
theorem encode_eq_of_oneWord {opc : BitVec 4} {ch dir : Bool} {imm : Half} (he : encode i = [mkHeader opc ch dir imm])
    (hne : opc ≠ 0x2#4) (hl : payload.length = payloadLength h) (hr : hdrRsv h = 0#10) (ho : hdrOpc h = opc)
    (hc : hdrCh h = ch) (hd : hdrDir h = dir) (hi : hdrImm h = imm) : encode i = h :: payload := by
  rw [he, mkHeader_eq hr ho hc hd hi, payload_eq_nil hl (ho ▸ hne)]

/-- The command that framed words decode to has those words as its encoding: the opcode gives the command, and the
tests of R76 leave no other bit free than its operands. -/
theorem encode_of_decode (hl : payload.length = payloadLength h) (hd : decode h payload = .command i) :
    encode i = h :: payload := by
  obtain ⟨hlegal, hsel⟩ := decode_eq_command_iff.mp hd
  obtain ⟨-, hrsv, hbyte, himm, hdir, hen, hpay⟩ := (illegalReason_eq_none_iff h payload).mp hlegal
  have ho := hdrOpc_of_selectCommand hsel
  rw [selectCommand, ho] at hsel
  cases i <;> cases hsel
  case push =>
    exact encode_eq_of_oneWord rfl (by decide) hl hrsv ho (by simp) (by simp)
      (immByte_hdrByte h (hbyte (.inl ho))).symm
  case pushMany =>
    have hcount : hdrImm h = BitVec.ofNat 16 (payload.map payloadByte).length := by
      simp [hl, payloadLength, ho, Instr.opcode]
    rw [encode, map_payloadWord_payloadByte (hpay ho),
      mkHeader_eq (opc := 0x2#4) hrsv ho (by simp) (by simp) hcount]
  case transmit =>
    exact encode_eq_of_oneWord rfl (by decide) hl hrsv ho (by simp) (hdir (.inl ho))
      (immByte_hdrByte h (hbyte (.inr ho))).symm
  case ieswap =>
    obtain ⟨hch, hdir, himm⟩ := hen ho
    exact encode_eq_of_oneWord rfl (by decide) hl hrsv ho hch hdir (enable_hdrImm h himm).symm
  case readStatus | init =>
    exact encode_eq_of_oneWord rfl (by decide) hl hrsv ho (by simp) (hdir (by simp [ho, Instr.opcode]))
      (himm (by simp [ho, Instr.opcode]))
  all_goals
    exact encode_eq_of_oneWord rfl (by decide) hl hrsv ho (by simp) (by simp) (himm (by simp [ho, Instr.opcode]))

theorem payloadLength_le (h : Word) : payloadLength h ≤ 65535 := by
  rw [payloadLength]
  split
  · exact Nat.le_of_lt_succ (hdrImm h).isLt
  · exact Nat.zero_le _

/-- The command of a framed header is well formed: as many payload words follow as its 16-bit count says (R73, R80). -/
theorem wellFormed_of_encode (hl : payload.length = payloadLength h) (he : encode i = h :: payload) :
    i.wellFormed = true := by
  cases i
  case pushMany q bs =>
    have hlen : bs.length = payload.length := by simpa using congrArg List.length (List.cons.inj he).2
    exact decide_eq_true (hlen ▸ hl ▸ payloadLength_le h)
  all_goals rfl

/-- Settles O7: `encode_of_decode`, and a framed count of 16 bits bounds the list (`wellFormed_of_encode`). -/
theorem onlyItsEncodingDecodesToACommand : Obligations.OnlyItsEncodingDecodesToACommand :=
  fun _ _ _ hl hd => ⟨wellFormed_of_encode hl (encode_of_decode hl hd), encode_of_decode hl hd⟩

/-! ## The conditions of R75 -/

/-- Of the opcodes that are not reserved, those without an operand are the ones R75 does not name. -/
theorem operandless_iff {o : BitVec 4} (hres : ¬(o = 0x0#4 ∨ o = 0xE#4 ∨ o = 0xF#4)) :
    (0x3#4 ≤ o ∧ o ≤ 0x9#4 ∨ o = 0xB#4 ∨ o = 0xC#4) ↔ o ≠ 0x1#4 ∧ o ≠ 0xA#4 ∧ o ≠ 0x2#4 ∧ o ≠ 0xD#4 := by
  revert o
  decide

/-- Settles O9: the opcode is reserved, or R75's conditions are the tests of R76 negated (`illegalReason_eq_none_iff`). -/
theorem illegalExactlyWhenAListedConditionHolds : Obligations.IllegalExactlyWhenAListedConditionHolds := by
  intro h payload
  rw [decode_illegal_iff, ne_eq, illegalReason_eq_none_iff]
  by_cases hres : hdrOpc h = 0x0#4 ∨ hdrOpc h = 0xE#4 ∨ hdrOpc h = 0xF#4
  · exact iff_of_true (fun hl => hl.1 hres) (.inl hres)
  · rw [operandless_iff hres]
    simp only [hdrOpc, hdrRsv, hdrImmHigh, hdrImm, hdrDir, hdrCh, hdrImmAboveBit0, payloadHigh]
    rw [← not_iff_not, not_not]
    simp only [not_or, not_and, not_exists, not_not, Bool.not_eq_true, ne_eq, and_imp, imp_and]
    tauto

/-! ## The opcode map -/

theorem getLsbD_of_slice_eq {n start k i : Nat} {v w : BitVec n} (h : v.extractLsb' start k = w.extractLsb' start k)
    (h1 : start ≤ i) (h2 : i < start + k) : v.getLsbD i = w.getLsbD i := by
  have hbit := congrArg (·.getLsbD (i - start)) h
  simpa [show i - start < k by omega, show start + (i - start) = i by omega] using hbit

/-- A word is its five fields (R71). -/
theorem word_eq_iff_fields {v w : Word} :
    v = w ↔ hdrOpc v = hdrOpc w ∧ hdrCh v = hdrCh w ∧ hdrDir v = hdrDir w ∧ hdrRsv v = hdrRsv w ∧
      hdrImm v = hdrImm w := by
  constructor
  · rintro rfl
    exact ⟨rfl, rfl, rfl, rfl, rfl⟩
  · rintro ⟨hopc, hch, hdir, hrsv, himm⟩
    apply BitVec.eq_of_getLsbD_eq
    intro i hi
    by_cases h16 : i < 16
    · exact getLsbD_of_slice_eq himm (by omega) (by omega)
    by_cases h26 : i < 26
    · exact getLsbD_of_slice_eq hrsv (by omega) (by omega)
    by_cases h27 : i = 26
    · exact h27 ▸ hdir
    by_cases h28 : i = 27
    · exact h28 ▸ hch
    · exact getLsbD_of_slice_eq hopc (by omega) (by omega)

/-- A header matches a row when each of its fields does. -/
theorem matches_iff_fields {r : OpcodeRow} :
    r.matches h = true ↔
      hdrOpc h &&& r.mask.extractLsb' 28 4 = r.value.extractLsb' 28 4 ∧
      (hdrCh h && r.mask.getLsbD 27) = r.value.getLsbD 27 ∧ (hdrDir h && r.mask.getLsbD 26) = r.value.getLsbD 26 ∧
      hdrRsv h &&& r.mask.extractLsb' 16 10 = r.value.extractLsb' 16 10 ∧
      hdrImm h &&& r.mask.extractLsb' 0 16 = r.value.extractLsb' 0 16 := by
  rw [OpcodeRow.matches, beq_iff_eq, word_eq_iff_fields]
  simp only [hdrOpc, hdrCh, hdrDir, hdrRsv, hdrImm, BitVec.extractLsb'_and, BitVec.getLsbD_and]

/-- Masking all bits from `k` up gives 0 when the slice of those bits is 0. -/
theorem and_high_eq_zero_iff {k n : Nat} (x : BitVec (n + k)) :
    x &&& (BitVec.allOnes n ++ 0#k) = 0#(n + k) ↔ x.extractLsb' k n = 0#n := by
  constructor
  · intro h
    have := congrArg (BitVec.extractLsb' k n) h
    simpa [BitVec.extractLsb'_and, BitVec.extractLsb'_append_eq_left] using this
  · intro h
    apply BitVec.eq_of_getLsbD_eq
    intro i hi
    rw [BitVec.getLsbD_and, BitVec.getLsbD_append]
    by_cases hk : i < k
    · simp [hk]
    · simp [getLsbD_of_slice_zero h (Nat.le_of_not_lt hk) (by omega)]

theorem hdrImm_and_high_byte : hdrImm h &&& 0xFF00#16 = 0#16 ↔ hdrImmHigh h = 0#8 := by
  have hslice : (hdrImm h).extractLsb' 8 8 = hdrImmHigh h := BitVec.eq_of_getLsbD_eq fun i hi => by
    simp [hdrImm, hdrImmHigh]
  rw [← hslice]
  exact and_high_eq_zero_iff (n := 8) (k := 8) (hdrImm h)

theorem hdrImm_and_above_bit0 : hdrImm h &&& 0xFFFE#16 = 0#16 ↔ hdrImmAboveBit0 h = 0#15 := by
  have hslice : (hdrImm h).extractLsb' 1 15 = hdrImmAboveBit0 h := BitVec.eq_of_getLsbD_eq fun i hi => by
    simp [hdrImm, hdrImmAboveBit0]
  rw [← hslice]
  exact and_high_eq_zero_iff (n := 15) (k := 1) (hdrImm h)

/-- Every row fixes all bits of OPC. -/
theorem hdrOpc_of_matches {r : OpcodeRow} (hr : r ∈ opcodeRows) (hm : r.matches h = true) :
    hdrOpc h = hdrOpc r.value := by
  have hmask : ∀ r ∈ opcodeRows, r.mask.extractLsb' 28 4 = BitVec.allOnes 4 := by decide
  obtain ⟨hopc, -⟩ := matches_iff_fields.mp hm
  rwa [hmask r hr, BitVec.and_allOnes] at hopc

/-- The rows of the opcode map, on the fields of the header (R74). -/
theorem exists_matches_iff :
    (∃ r ∈ opcodeRows, r.matches h = true) ↔
      hdrRsv h = 0#10 ∧
        (hdrOpc h = 0x1#4 ∧ hdrImmHigh h = 0#8 ∨ hdrOpc h = 0x2#4 ∨
          (0x3#4 ≤ hdrOpc h ∧ hdrOpc h ≤ 0x9#4) ∧ hdrImm h = 0#16 ∨
          hdrOpc h = 0xA#4 ∧ hdrDir h = false ∧ hdrImmHigh h = 0#8 ∨
          (hdrOpc h = 0xB#4 ∨ hdrOpc h = 0xC#4) ∧ hdrDir h = false ∧ hdrImm h = 0#16 ∨
          hdrOpc h = 0xD#4 ∧ hdrCh h = false ∧ hdrDir h = false ∧ hdrImmAboveBit0 h = 0#15) := by
  have hopc (x : BitVec 4) : x &&& 0xF#4 = x := BitVec.and_allOnes
  have hrsv (x : BitVec 10) : x &&& 0x3FF#10 = x := BitVec.and_allOnes
  have himm (x : Half) : x &&& 0xFFFF#16 = x := BitVec.and_allOnes
  simp only [opcodeRows, fifoRows, channelRows, List.cons_append, List.nil_append, List.exists_mem_cons_iff]
  simp only [matches_iff_fields, BitVec.reduceExtractLsb', hopc, Nat.reduceLT, BitVec.getLsbD_eq_getElem,
    BitVec.reduceGetElem, Bool.and_false, hrsv, hdrImm_and_high_byte, true_and, BitVec.and_zero, and_true, himm,
    Bool.and_true, hdrImm_and_above_bit0, List.not_mem_nil, false_and, exists_false, or_false]
  rcases opcode_cases (hdrOpc h) with e | e | e | e | e | e | e | e | e | e | e | e | e | e | e | e <;>
    simp [e, and_assoc, and_comm]

theorem legal_iff_exists_matches (hpay : ∀ w ∈ payload, payloadHigh w = 0#24) :
    legal h payload = true ↔ ∃ r ∈ opcodeRows, r.matches h = true := by
  rw [legal_iff, illegalReason_eq_none_iff, exists_matches_iff]
  rcases opcode_cases (hdrOpc h) with e | e | e | e | e | e | e | e | e | e | e | e | e | e | e | e <;>
    simp [e, eq_true hpay, and_comm]

/-- Settles O10: the rows on the header's fields (`exists_matches_iff`) are the tests of R76, and no two rows have the same
opcode. -/
theorem legalHeaderMatchesExactlyOneOpcodeRow : Obligations.LegalHeaderMatchesExactlyOneOpcodeRow := by
  intro h payload hpay
  refine ⟨legal_iff_exists_matches hpay, fun r₁ h₁ r₂ h₂ hm₁ hm₂ => ?_⟩
  have hvalue : ∀ r₁ ∈ opcodeRows, ∀ r₂ ∈ opcodeRows, hdrOpc r₁.value = hdrOpc r₂.value → r₁ = r₂ := by decide
  exact hvalue r₁ h₁ r₂ h₂ ((hdrOpc_of_matches h₁ hm₁).symm.trans (hdrOpc_of_matches h₂ hm₂))

/-! ## Framing -/

/-- A stream that ends before the payload of its header holds no whole command (R80). -/
theorem frame_eq_none_of_short {ws : List Word} (hs : ws.length < payloadLength h) : frame (h :: ws) = none := by
  simp [frame, hs]

/-- Settles O11: the framing of R80 is `payloadLength`, which reads OPC and IMM only. -/
theorem framingFollowsOpcodeAndCountAlone : Obligations.FramingFollowsOpcodeAndCountAlone := by
  intro h payload rest hl
  change payload.length = payloadLength h at hl
  refine ⟨frame_cons_append h payload rest hl, fun n hn => frame_eq_none_of_short ?_⟩
  rw [List.length_take, ← hl]
  omega

end Sys2Proof

namespace Sys2Proof.Machine

/-! ## The assembler -/

theorem asmByte_eq_none_iff {n : Nat} : asmByte n = none ↔ 255 < n := by simp [asmByte]

theorem asmEnable_eq_none_iff {n : Nat} : asmEnable n = none ↔ 1 < n := by
  match n with
  | 0 => simp [asmEnable]
  | 1 => simp [asmEnable]
  | n + 2 => simp [asmEnable]

theorem mapM_asmByte_eq_none_iff {ns : List Nat} : ns.mapM asmByte = none ↔ ∃ n ∈ ns, 255 < n := by
  induction ns with
  | nil => simp
  | cons n ns ih =>
    rw [List.mapM_cons, List.exists_mem_cons_iff, ← asmByte_eq_none_iff, ← ih]
    cases asmByte n <;> cases ns.mapM asmByte <;> simp

theorem length_of_mapM_asmByte {ns : List Nat} {bs : List Byte} (h : ns.mapM asmByte = some bs) :
    bs.length = ns.length := by
  induction ns generalizing bs with
  | nil => cases h; rfl
  | cons n ns ih =>
    rw [List.mapM_cons] at h
    cases hb : asmByte n <;> cases hbs : ns.mapM asmByte <;> simp [hb, hbs] at h
    simp [← h, ih hbs]

theorem asmBytes_eq_none_iff {ns : List Nat} : asmBytes ns = none ↔ 65535 < ns.length ∨ ∃ n ∈ ns, 255 < n := by
  by_cases hl : ns.length ≤ 65535
  · rw [asmBytes, if_pos hl, mapM_asmByte_eq_none_iff, or_iff_right (Nat.not_lt.mpr hl)]
  · exact iff_of_true (if_neg hl) (.inl (Nat.not_le.mp hl))

theorem asmBytes_length_le {ns : List Nat} {bs : List Byte} (h : asmBytes ns = some bs) : bs.length ≤ 65535 := by
  obtain ⟨hl, hbs⟩ := Option.ite_none_right_eq_some.mp h
  exact length_of_mapM_asmByte hbs ▸ hl

theorem wellFormed_of_assemble {l : AsmLine} {i : Instr} (h : assemble l = some i) : i.wellFormed = true := by
  cases l
  case pushMany q ns =>
    obtain ⟨bs, hbs, rfl⟩ := Option.map_eq_some_iff.mp h
    exact decide_eq_true (asmBytes_length_le hbs)
  case push | transmit | ieswap | restore => obtain ⟨_, -, rfl⟩ := Option.map_eq_some_iff.mp h; rfl
  all_goals cases h; rfl

/-- Settles O12: a line is rejected exactly when the check of its operand rejects it. -/
theorem assemblerRejectsWideOperandsAndExpandsPseudoInstructions :
    Obligations.AssemblerRejectsWideOperandsAndExpandsPseudoInstructions := by
  refine ⟨fun q n => ?_, fun ch n => ?_, fun q ns => ?_, fun n => ?_, fun l i => wellFormed_of_assemble, rfl, rfl,
    fun _ => rfl, fun ch => ?_, fun _ => rfl⟩
  · rw [assemble, Option.map_eq_none_iff, asmByte_eq_none_iff]
  · rw [assemble, Option.map_eq_none_iff, asmByte_eq_none_iff]
  · rw [assemble, Option.map_eq_none_iff, asmBytes_eq_none_iff]
  · rw [assemble, Option.map_eq_none_iff, asmEnable_eq_none_iff]
  · cases ch <;> rfl

variable {s : State}

/-! ## Every command answers once -/

/-- The answers of R191: VALUE is 0 unless RC is OK, RC is never ILLEGAL, and only the five commands that can find a queue
full, too small or empty answer other than OK. -/
def Answers (i : Instr) (rc : RC) (v : Half) : Prop :=
  (rc ≠ .ok → v = 0#16) ∧ rc ≠ .illegal ∧
    (rc ≠ .ok → (∃ q b, i = .push q b ∧ rc = .full) ∨ (∃ q bs, i = .pushMany q bs ∧ (rc = .full ∨ rc = .tooMany)) ∨
      ∃ q, (i = .pop q ∨ i = .frontPeek q ∨ i = .backPeek q) ∧ rc = .empty)

theorem answers_ok (i : Instr) (v : Half) : Answers i .ok v := by simp [Answers]

theorem qPush_rc (c : Capacity) (q : Queue) (b : Byte) : (qPush c q b).1 = .ok ∨ (qPush c q b).1 = .full := by
  by_cases h : q.len.toNat = c.val
  · exact .inr ((qPush_rc_full_iff b).mpr h)
  · exact .inl ((qPush_rc_ok_iff b).mpr h)

theorem qPushMany_rc (c : Capacity) (q : Queue) (bs : List Byte) :
    (qPushMany c q bs).1 = .ok ∨ (qPushMany c q bs).1 = .full ∨ (qPushMany c q bs).1 = .tooMany := by
  rw [qPushMany]
  split_ifs <;> simp

theorem qPop_answer (c : Capacity) (q : Queue) :
    (qPop c q).1 = .ok ∨ (qPop c q).1 = .empty ∧ (qPop c q).2.1 = 0#8 := by
  by_cases h : q.len = 0#16
  · rw [qPop_of_empty h]; exact .inr ⟨rfl, rfl⟩
  · exact .inl (qPop_rc_ok_iff.mpr h)

theorem qFront_answer (q : Queue) : (qFront q).1 = .ok ∨ (qFront q).1 = .empty ∧ (qFront q).2 = 0#8 := by
  rw [qFront]
  split <;> simp

theorem qBack_answer (c : Capacity) (q : Queue) :
    (qBack c q).1 = .ok ∨ (qBack c q).1 = .empty ∧ (qBack c q).2 = 0#8 := by
  rw [qBack]
  split <;> simp

/-- A command that answers a byte, or EMPTY with the byte 0, answers as R191 says when EMPTY is one of its codes. -/
theorem answers_byte {i : Instr} {rc : RC} {b : Byte} {id : QueueId}
    (hi : i = .pop id ∨ i = .frontPeek id ∨ i = .backPeek id) (h : rc = .ok ∨ rc = .empty ∧ b = 0#8) :
    Answers i rc (zext16 b) := by
  rcases h with rfl | ⟨rfl, rfl⟩
  · exact answers_ok i _
  · exact ⟨fun _ => rfl, by decide, fun _ => .inr (.inr ⟨id, hi, rfl⟩)⟩

theorem transmitEffect_keepsInputs_out (ch : Channel) (b : Byte) :
    KeepsInputs s (transmitEffect ch b s) ∧ (transmitEffect ch b s).out = s.out := by
  by_cases h : (s.queue (txq ch)).len.toNat = (s.cap (txq ch)).val
  · rw [transmitEffect_of_full ch b h]; cases ch <;> simp [keepsInputs_iff]
  · rw [transmitEffect_of_room ch b h]; split <;> simp [keepsInputs_iff]

theorem initEffect_keepsInputs_out (ch : Channel) :
    KeepsInputs s (initEffect ch s) ∧ (initEffect ch s).out = s.out := by
  cases ch <;> simp [initEffect, clearPend, keepsInputs_iff]

/-- Every command changes the state without any output, then answers with its one response (R70, R77). -/
theorem exec_responds (i : Instr) (s : State) :
    ∃ u rc v, exec i s = .next (u.respond rc v) ∧ KeepsInputs s u ∧ u.out = s.out ∧ Answers i rc v := by
  cases i with
  | push q b =>
    refine ⟨_, _, _, exec_push q b, by simp [keepsInputs_iff], by simp, ?_⟩
    rcases qPush_rc (s.cap q) (s.queue q) b with hrc | hrc <;> simp [Answers, hrc]
  | pushMany q bs =>
    refine ⟨_, _, _, exec_pushMany q bs, by simp [keepsInputs_iff], by simp, ?_⟩
    rcases qPushMany_rc (s.cap q) (s.queue q) bs with hrc | hrc | hrc <;> simp [Answers, hrc]
  | pop q =>
    exact ⟨_, _, _, exec_pop q, by simp [keepsInputs_iff], by simp, answers_byte (.inl rfl) (qPop_answer _ _)⟩
  | popAll q => exact ⟨_, _, _, exec_popAll q, by simp [keepsInputs_iff], by simp, answers_ok _ _⟩
  | len q => exact ⟨_, _, _, exec_len q, by simp [keepsInputs_iff], rfl, answers_ok _ _⟩
  | frontPeek q =>
    exact ⟨_, _, _, exec_frontPeek q, by simp [keepsInputs_iff], rfl, answers_byte (.inr (.inl rfl)) (qFront_answer _)⟩
  | backPeek q =>
    exact ⟨_, _, _, exec_backPeek q, by simp [keepsInputs_iff], rfl, answers_byte (.inr (.inr rfl)) (qBack_answer _ _)⟩
  | isEmpty q => exact ⟨_, _, _, exec_isEmpty q, by simp [keepsInputs_iff], rfl, answers_ok _ _⟩
  | isFull q => exact ⟨_, _, _, exec_isFull q, by simp [keepsInputs_iff], rfl, answers_ok _ _⟩
  | transmit ch b =>
    obtain ⟨hin, hout⟩ := transmitEffect_keepsInputs_out (s := s) ch b
    exact ⟨_, _, _, exec_transmit ch b, hin, hout, answers_ok _ _⟩
  | readStatus ch => exact ⟨_, _, _, exec_readStatus ch, by simp [keepsInputs_iff], rfl, answers_ok _ _⟩
  | init ch =>
    obtain ⟨hin, hout⟩ := initEffect_keepsInputs_out (s := s) ch
    exact ⟨_, _, _, exec_init ch, hin, hout, answers_ok _ _⟩
  | ieswap v => exact ⟨_, _, _, exec_ieswap v, by simp [keepsInputs_iff], rfl, answers_ok _ _⟩

/-- Settles O27: the shape of every command's next state (`exec_responds`), and no command touches a busy latch. -/
theorem everyCommandAnswersExactlyOnce : Obligations.EveryCommandAnswersExactlyOnce := by
  intro i s
  obtain ⟨u, rc, v, hexec, hin, hout, hvalue, hillegal, hother⟩ := exec_responds i s
  refine ⟨_, rc, v, hexec, ?_, hvalue, hillegal, hother, (exec_phyBusy_ie hexec).1, ?_⟩
  · rw [respond_eq, emit_out, hout, responseWord]
  · exact ⟨hin.params, hin.fg, hin.sched, hin.tick⟩

/-! ## The steps of FG -/

variable {ms : List Move} {h : Word} {payload rest : List Word} {i : Instr}

theorem step_of_command (hs : s.sched = .fg :: ms) (hf : frame s.fg = some (h, payload, rest))
    (hd : decode h payload = .command i) :
    step s = exec i (((s.setSched ms).setFg rest).emit (.command h payload)) := by
  rw [step_cons hs]
  simp [runMove, fgStep, hf, hd, acceptCommand]

theorem step_of_illegal {why : Illegal} (hs : s.sched = .fg :: ms) (hf : frame s.fg = some (h, payload, rest))
    (hd : decode h payload = .illegal why) :
    step s = .next (answerIllegal (((s.setSched ms).setFg rest).emit (.command h payload))) := by
  rw [step_cons hs]
  simp [runMove, fgStep, hf, hd, acceptCommand]

/-- Settles O30: a command's framed words decode to it, its encoding among them (`decode_encode`). -/
theorem stepRunsTheDecodedCommand : Obligations.StepRunsTheDecodedCommand := by
  refine ⟨fun s ms h payload rest i hs hfg hl hd => ?_, fun s ms rest i hs hw hfg => ?_⟩
  · exact step_of_command hs (hfg ▸ frame_cons_append h payload rest hl) hd
  · obtain ⟨h, payload, he, -, hframe⟩ := framedEncoding i hw
    exact ⟨h, payload, he, step_of_command hs (hfg ▸ hframe rest) (decode_encode he)⟩

/-- Settles O31: of the state only the port, the choices and the observation change (`step_of_illegal`). -/
theorem illegalCommandIsAnsweredAndChangesNothing : Obligations.IllegalCommandIsAnsweredAndChangesNothing := by
  intro s ms h payload rest hs hfg hl hlegal
  obtain ⟨why, hd⟩ := decode_illegal_iff.mpr fun hnone => by simp [(legal_iff h payload).mpr hnone] at hlegal
  refine ⟨_, step_of_illegal hs (hfg ▸ frame_cons_append h payload rest hl) hd, ?_⟩
  simp [answerIllegal, keepsStatus_iff, keepsLatches_iff, responseWord, RC.code]

theorem fgStep_answers (s : State) : ∃ t, fgStep s = .next t := by
  simp only [fgStep]
  split
  · exact ⟨s, rfl⟩
  · split
    · obtain ⟨u, rc, v, hexec, -⟩ := exec_responds _ _
      exact ⟨_, hexec⟩
    · exact ⟨_, rfl⟩

/-- Settles O32: FG's step answers (`fgStep_answers`), and the steps of the other agents are total. -/
theorem everyStepAnswersANextState : Obligations.EveryStepAnswersANextState := by
  intro s
  rw [step]
  cases nextMove s with
  | fg => exact fgStep_answers _
  | dispatch e d => exact ⟨_, rfl⟩
  | complete p => exact ⟨_, rfl⟩
  | arrive => exact ⟨_, rfl⟩

end Sys2Proof.Machine

/-! PROOFS of the family 40_fifo_commands: what the FIFO commands answer, change and leave (R100 to R106, R110 to R116),
and TRANSMIT and INIT, which use the same queue primitives (R140, R142). -/

namespace Sys2Proof.Machine

variable {s : State} {c : Capacity} {q : Queue}

/-! ## The responses of the result codes (R77, R78) -/

theorem responseWord_ok_zero : responseWord .ok 0#16 = 0x00000000#32 := rfl
theorem responseWord_full : responseWord .full 0#16 = 0x10000000#32 := rfl
theorem responseWord_empty : responseWord .empty 0#16 = 0x20000000#32 := rfl
theorem responseWord_tooMany : responseWord .tooMany 0#16 = 0x30000000#32 := rfl

theorem zext16_zero : zext16 0#8 = 0#16 := rfl

/-- The OK response that carries a 16-bit count is that count as a word (R77). -/
theorem responseWord_ok_eq_ofNat (v : Half) : responseWord .ok v = BitVec.ofNat 32 v.toNat := by
  rw [responseWord_ok]
  apply BitVec.eq_of_toNat_eq
  have hv : v.toNat < 2 ^ 32 := by have := v.isLt; omega
  rw [BitVec.toNat_append, BitVec.toNat_ofNat (w := 32), Nat.mod_eq_of_lt hv]
  simp

/-- Adding to the observation keeps the parameters and the inputs. -/
theorem keepsInputs_emit {t : State} (h : KeepsInputs s t) (o : Output) : KeepsInputs s (t.emit o) :=
  ⟨h.params, h.fg, h.sched, h.tick⟩

/-! ## PUSH and PUSH_MANY -/

/-- Settles O13: on a full queue `q_push` answers the queue it was given, with room it writes the one cell (R100). -/
theorem pushStoresAtTheBackOrAnswersFull : Obligations.PushStoresAtTheBackOrAnswersFull := by
  intro id b s hi
  have hw := inv_iff.mp hi id
  refine ⟨_, exec_push id b, keepsAllBut_setQueue_emit id _ _, ?_⟩
  split
  next hfull => simp [qPush_of_full b hfull, responseWord_full]
  next hroom =>
    refine ⟨by simpa [content_def] using qPush_content hw b hroom, ?_, by simpa using qPush_len hw b hroom, ?_, ?_⟩
    all_goals simp [qPush_of_room b hroom, Queue.index, responseWord_ok_zero]

theorem qPushMany_len (bs : List Byte) (h : q.len.toNat + bs.length ≤ c.val) :
    (qPushMany c q bs).2.len.toNat = q.len.toNat + bs.length := by
  have hc := Capacity_le c
  rw [qPushMany_of_room bs h]
  simp only [BitVec.toNat_ofNat]
  omega

/-- Settles O14: the two refusals answer the queue they were given; with room `writeCells_spec` gives the cells
(R101). -/
theorem pushManyAppendsAllOrNothing : Obligations.PushManyAppendsAllOrNothing := by
  intro id bs s hi
  have hw := inv_iff.mp hi id
  refine ⟨_, exec_pushMany id bs, keepsAllBut_setQueue_emit id _ _, ?_⟩
  split_ifs with htooMany hfull
  · simp [qPushMany_of_tooMany bs htooMany, responseWord_tooMany]
  · simp [qPushMany_of_full bs (by omega) hfull, responseWord_full]
  · have hroom : (s.queue id).len.toNat + bs.length ≤ (s.cap id).val := by omega
    obtain ⟨hin, hout⟩ := writeCells_spec (s.cap id) bs (s.queue id).buf
      ((s.queue id).front.toNat + (s.queue id).len.toNat) hw.1 (by omega)
    refine ⟨by simpa [content_def] using qPushMany_content hw bs hroom, ?_, by simpa using qPushMany_len bs hroom,
      ?_, ?_, ?_⟩
    · simp [qPushMany_of_room bs hroom]
    · simpa [qPushMany_of_room bs hroom] using hin
    · simpa [qPushMany_of_room bs hroom] using hout
    · simp [qPushMany_of_room bs hroom, responseWord_ok_zero]

theorem pushes_len (bs : List Byte) (hw : q.Wf c) (h : q.len.toNat + bs.length ≤ c.val) :
    (bs.foldl (fun r b => (qPush c r b).2) q).len.toNat = q.len.toNat + bs.length := by
  rw [← content_length (c := c), (pushes_content bs q hw h).1, List.length_append, content_length]

/-- Settles O15: `writeCells_eq_pushes`, and a queue that still has a byte of the list to come is not full (R101). -/
theorem pushManyIsRepeatedPush : Obligations.PushManyIsRepeatedPush := by
  intro c q bs hw hok
  have hroom := (qPushMany_rc_ok_iff bs).mp hok
  refine ⟨by rw [qPushMany_of_room bs hroom, writeCells_eq_pushes bs q hw hroom], fun pre b post hbs => ?_⟩
  have hlength : bs.length = pre.length + (post.length + 1) := by simp [hbs]
  rw [qPush_rc_ok_iff, pushes_len pre hw (by omega)]
  omega

/-! ## POP and POP_ALL -/

/-- A pop leaves every cell (R102). -/
theorem qPop_buf : (qPop c q).2.2.buf = q.buf := by
  by_cases h : q.len = 0#16
  · rw [qPop_of_empty h]
  · rw [qPop_of_some h]

/-- Settles O16: on an empty queue `q_pop` answers the queue it was given, otherwise it takes the first byte (R102). -/
theorem popTakesTheOldestByteOrAnswersEmpty : Obligations.PopTakesTheOldestByteOrAnswersEmpty := by
  intro id s hi
  have hw := inv_iff.mp hi id
  refine ⟨_, exec_pop id, keepsAllBut_setQueue_emit id _ _, ?_⟩
  split
  next hempty => simp [qPop_of_empty hempty, zext16_zero, responseWord_empty]
  next hsome =>
    have hpos : (s.queue id).len.toNat ≠ 0 := mt len_eq_zero_iff.mpr hsome
    have hlen : (qPop (s.cap id) (s.queue id)).2.2.len.toNat + 1 = (s.queue id).len.toNat := by
      rw [qPop_len hsome]; omega
    refine ⟨(qPop (s.cap id) (s.queue id)).2.1, by simpa [content_def] using qPop_content hw hsome,
      by simpa using qPop_front hsome, by simpa using hlen, by simpa using qPop_buf, ?_⟩
    simp [qPop_rc_ok_iff.mpr hsome, responseWord_ok_zext16]

/-- Settles O17: the queue is `qPopAll` of what it was, whatever its state. -/
theorem popAllEmptiesTheQueue : Obligations.PopAllEmptiesTheQueue := by
  intro id s
  refine ⟨_, exec_popAll id, keepsAllBut_setQueue_emit id _ _, by simp, by simp [qPopAll], by simp [qPopAll],
    by simp [qPopAll], by simp [qPopAll, Queue.isEmpty], ?_, by simp [responseWord_ok_zero]⟩
  simpa [qPopAll, Queue.isFull] using (Capacity_pos (s.cap id)).ne

/-! ## The commands that only read -/

/-- Settles O18: the occupancy is the length of the content (`content_length`). -/
theorem lenAnswersTheOccupancy : Obligations.LenAnswersTheOccupancy := by
  intro id s
  refine ⟨_, exec_len id, keepsAllBut_emit id _, by simp, ?_⟩
  rw [respond_eq, emit_out, qLen, responseWord_ok_eq_ofNat, content_def, content_length]

/-- The response to an answer `(rc, b)` that is OK with the byte `o` holds, or EMPTY when there is none (R105, R106). -/
theorem responseWord_peek {o : Option Byte} {rc : RC} {b : Byte}
    (h : rc = .ok ∧ o = some b ∨ rc = .empty ∧ b = 0#8 ∧ o = none) :
    responseWord rc (zext16 b) = match (generalizing := false) o with
      | none => 0x20000000#32
      | some b => 0#24 ++ b := by
  rcases h with ⟨rfl, rfl⟩ | ⟨rfl, rfl, rfl⟩
  · exact responseWord_ok_zext16 b
  · exact responseWord_empty

/-- `q_front` answers the first byte of the content, or EMPTY (R105). -/
theorem qFront_head (hw : q.Wf c) :
    (qFront q).1 = .ok ∧ (q.content c).head? = some (qFront q).2 ∨
      (qFront q).1 = .empty ∧ (qFront q).2 = 0#8 ∧ (q.content c).head? = none := by
  by_cases h : q.len = 0#16
  · simp [qFront_of_empty h, content_eq_nil_iff.mpr h]
  · exact .inl (qFront_content hw h)

/-- `q_back` answers the last byte of the content, or EMPTY (R106). -/
theorem qBack_last :
    (qBack c q).1 = .ok ∧ (q.content c).getLast? = some (qBack c q).2 ∨
      (qBack c q).1 = .empty ∧ (qBack c q).2 = 0#8 ∧ (q.content c).getLast? = none := by
  by_cases h : q.len = 0#16
  · simp [qBack_of_empty h, content_eq_nil_iff.mpr h]
  · exact .inl (qBack_content h)

/-- Settles O19: both peeks answer the end of the content that `qFront_head` and `qBack_last` name. -/
theorem peeksReadTheEndsWithoutRemoving : Obligations.PeeksReadTheEndsWithoutRemoving := by
  intro id s hi
  refine ⟨⟨_, exec_frontPeek id, keepsAllBut_emit id _, by simp, ?_⟩,
    ⟨_, exec_backPeek id, keepsAllBut_emit id _, by simp, ?_⟩⟩
  · exact congrArg (s.out ++ [.response ·]) (responseWord_peek (qFront_head (inv_iff.mp hi id)))
  · exact congrArg (s.out ++ [.response ·]) (responseWord_peek qBack_last)

/-! ## TRANSMIT and INIT -/

/-- TRANSMIT pushes its byte to the send queue, which a full queue drops, and leaves the other queues (R140). -/
theorem transmitEffect_queue (ch : Channel) (b : Byte) (id : QueueId) :
    (transmitEffect ch b s).queue id =
      if id = txq ch then (qPush (s.cap (txq ch)) (s.queue (txq ch)) b).2 else s.queue id := by
  by_cases h : (s.queue (txq ch)).len.toNat = (s.cap (txq ch)).val
  · rw [transmitEffect_of_full ch b h, qPush_of_full b h]
    cases ch <;> cases id <;> rfl
  · rw [transmitEffect_of_room ch b h]
    split <;> simp

/-- Settles O23: the full and the room case of R140, each by what TRANSMIT does to the queues, latches and statuses. -/
theorem transmitQueuesAndArmsOrOverflows : Obligations.TransmitQueuesAndArmsOrOverflows := by
  intro ch b s hi
  have hw := inv_iff.mp hi (txq ch)
  obtain ⟨hie, hphy⟩ := transmitEffect_keeps (s := s) ch b
  obtain ⟨hin, hout⟩ := transmitEffect_keepsInputs_out (s := s) ch b
  refine ⟨_, exec_transmit ch b, fun id hid => ?_, keepsInputs_emit hin _, hie, by simpa using hphy,
    fun e he => ?_, ?_, ?_⟩
  · have hne : id ≠ txq ch := by simpa using hid
    simp [transmitEffect_queue, hne]
  · simp [transmitEffect_pend, he]
  · rw [respond_eq, emit_out, hout, responseWord_ok_zero]
  · split
    next hfull =>
      refine ⟨by simp [transmitEffect_queue, qPush_of_full b hfull], by simp [transmitEffect_pend, hfull], ?_⟩
      rw [transmitEffect_of_full ch b hfull]
      cases ch <;> exact ⟨rfl, rfl⟩
    next hroom =>
      obtain ⟨hbus, huart⟩ := transmitEffect_keepsStatus ch b hroom
      refine ⟨?_, ⟨hbus, huart⟩, ?_, ?_, ?_⟩
      · have hcap : (transmitEffect ch b s).cap (txq ch) = s.cap (txq ch) := by
          rw [State.cap, transmitEffect_params, State.cap]
        simp [content_def, transmitEffect_queue, hcap, qPush_content hw b hroom]
      · simp [transmitEffect_queue, qPush_of_room b hroom]
      · simp [transmitEffect_queue, qPush_of_room b hroom, Queue.index]
      · have harm : (transmitEffect ch b s).pend (txev ch) = (s.pend (txev ch) || s.statusIsIdle ch) := by
          cases hidle : s.statusIsIdle ch <;> simp [transmitEffect_pend, hroom, hidle]
        cases ch <;> exact harm

/-- INIT empties both queues of its channel and leaves the queues of the other (R142). -/
theorem initEffect_queue (ch : Channel) (id : QueueId) :
    (initEffect ch s).queue id = if id = txq ch ∨ id = rxq ch then qPopAll (s.queue id) else s.queue id := by
  cases ch <;> cases id <;> rfl

/-- Settles O25: what INIT does to the queues, the status and the latches of its channel, and its frame (R142). -/
theorem initReinitialisesOneChannel : Obligations.InitReinitialisesOneChannel := by
  intro ch s
  obtain ⟨hie, hphy⟩ := initEffect_keeps (s := s) ch
  obtain ⟨hin, hout⟩ := initEffect_keepsInputs_out (s := s) ch
  refine ⟨_, exec_init ch, fun id hid => ?_, by cases ch <;> rfl, by cases ch <;> rfl, hie, by simpa using hphy,
    keepsInputs_emit hin _, by rw [respond_eq, emit_out, hout, responseWord_ok_zero], ?_⟩
  · have hq : ((initEffect ch s).respond .ok 0#16).queue id = qPopAll (s.queue id) := by
      rw [respond_eq, emit_queue, initEffect_queue, if_pos hid]
    rw [content_def, hq]
    exact ⟨qPopAll_content, rfl, rfl, rfl⟩
  · cases ch with
    | bus => simp [initEffect, clearPend, txq, rxq, keepsUart_iff]
    | uart => simp [initEffect, clearPend, txq, rxq, keepsBus_iff]

end Sys2Proof.Machine

/-! PROOFS of the family 41_channel_commands: a stalled channel waits for its INIT (R228 to R230), and what TRANSMIT on
a full queue and INIT do to a transfer under way (R231, R232, R234). -/

namespace Sys2Proof.Machine

variable {s t u : State} {ch : Channel} {i : Instr}

/-! ## Stalled transmit paths -/

/-- The transmit path of a channel is stalled (R228 to R230). -/
structure Stalled (ch : Channel) (s : State) : Prop where
  status : s.statusIsIdle ch = false
  phyBusy : s.phyBusy (pathOf ch) = false
  pend : s.pend (txev ch) = false

theorem stalled_bus_iff : Stalled .bus s ↔ BusStalled s :=
  ⟨fun ⟨h1, h2, h3⟩ => ⟨by simpa [State.statusIsIdle] using h1, h2, h3⟩,
    fun ⟨h1, h2, h3⟩ => ⟨by simpa [State.statusIsIdle] using h1, h2, h3⟩⟩

theorem stalled_uart_iff : Stalled .uart s ↔ UartTxStalled s :=
  ⟨fun ⟨h1, h2, h3⟩ => ⟨by simpa [State.statusIsIdle] using h1, h2, h3⟩,
    fun ⟨h1, h2, h3⟩ => ⟨by simpa [State.statusIsIdle] using h1, h2, h3⟩⟩

theorem statusIsIdle_of_keepsStatus (h : KeepsStatus s t) (ch : Channel) : t.statusIsIdle ch = s.statusIsIdle ch := by
  cases ch <;> simp [State.statusIsIdle, h.bus, h.uart]

/-- A stall is a matter of the statuses and the latches. -/
theorem stalled_of_keeps (hs : KeepsStatus s t) (hl : KeepsLatches s t) (h : Stalled ch s) : Stalled ch t :=
  ⟨(statusIsIdle_of_keepsStatus hs ch).trans h.status, (hl.phyBusy _).trans h.phyBusy, (hl.pend _).trans h.pend⟩

theorem afterChoice_stalled (h : Stalled ch s) : Stalled ch (afterChoice s) :=
  stalled_of_keeps (by simp [keepsStatus_iff]) (by simp [keepsLatches_iff]) h

theorem acceptCommand_stalled {hd : Word} {payload rest : List Word} (h : Stalled ch s) :
    Stalled ch (acceptCommand hd payload rest s) :=
  stalled_of_keeps (by simp [acceptCommand, keepsStatus_iff]) (by simp [acceptCommand, keepsLatches_iff]) h

theorem answerIllegal_stalled (h : Stalled ch s) : Stalled ch (answerIllegal s) :=
  stalled_of_keeps (by simp [answerIllegal, keepsStatus_iff]) (by simp [answerIllegal, keepsLatches_iff]) h

/-- The step wrote nothing to the channel's peripheral (R166). -/
def WritesNothing (ch : Channel) (s t : State) : Prop := ∃ os, t.out = s.out ++ os ∧ ∀ b, .write ch b ∉ os

theorem writesNothing_of_same_out (h : t.out = s.out) : WritesNothing ch s t := ⟨[], by simp [h], by simp⟩

/-- Taking a command from the port and answering it writes to no peripheral (R70, R212). -/
theorem writesNothing_of_answer {hd : Word} {payload rest : List Word}
    (h : ∃ w, t.out = (acceptCommand hd payload rest (afterChoice s)).out ++ [.response w]) :
    WritesNothing ch s t := by
  obtain ⟨w, hout⟩ := h
  exact ⟨[.command hd payload, .response w], by simp [hout, acceptCommand], by simp⟩

/-- A write makes its path busy (R166), so a path that is not busy afterwards was not written. -/
theorem writesNothing_of_not_busy (h : WritesAtMostOnce s t) (hb : t.phyBusy (pathOf ch) = false) :
    WritesNothing ch s t := by
  rcases h with ⟨hout, -⟩ | ⟨ch', b, hout, hbusy⟩
  · exact writesNothing_of_same_out hout
  · refine ⟨_, hout, fun b' hmem => ?_⟩
    obtain ⟨rfl, -⟩ : ch = ch' ∧ b' = b := by simpa using hmem
    simp [hbusy] at hb

/-! ## The steps from a stalled state -/

theorem txev_inj {ch' : Channel} : txev ch = txev ch' ↔ ch = ch' := by
  cases ch <;> cases ch' <;> simp [txev]

/-- A channel's send event is the event of its own path's completion. -/
theorem txev_eq_evOf_iff {p : TxPath} : txev ch = evOf p ↔ p = pathOf ch := by
  cases ch <;> cases p <;> simp [txev, evOf, pathOf]

theorem txev_ne_urxEv (ch : Channel) : txev ch ≠ .urxEv := by cases ch <;> simp [txev]

theorem exec_out (h : exec i s = .next t) : ∃ w, t.out = s.out ++ [.response w] := by
  obtain ⟨u, rc, v, hexec, -, hout, -⟩ := exec_responds i s
  obtain rfl := Host.Outcome.next.inj (h.symm.trans hexec)
  exact ⟨responseWord rc v, by simp [hout]⟩

/-- Only INIT makes a status idle: the other write of a command is TRANSMIT's overflow (R30). -/
theorem exec_statusIsIdle (hs : s.statusIsIdle ch = false) (h : exec i s = .next t) (hne : i ≠ .init ch) :
    t.statusIsIdle ch = false := by
  obtain ⟨hbus, huart⟩ := onlyFullTransmitAndInitWriteAStatus i s t h
  cases ch with
  | bus =>
    by_cases hsame : t.busStatus = s.busStatus
    · simpa [State.statusIsIdle, hsame] using hs
    · obtain ⟨b, -, -, hovf⟩ := (hbus hsame).resolve_right fun ⟨hinit, _⟩ => hne hinit
      simp [State.statusIsIdle, hovf]
  | uart =>
    by_cases hsame : t.uartStatus = s.uartStatus
    · simpa [State.statusIsIdle, hsame] using hs
    · obtain ⟨b, -, -, hovf⟩ := (huart hsame).resolve_right fun ⟨hinit, _⟩ => hne hinit
      simp [State.statusIsIdle, hovf]

/-- A command but the channel's INIT keeps the stall: TRANSMIT arms the send event from an idle status only (R140). -/
theorem exec_stalled (hst : Stalled ch s) (h : exec i s = .next t) (hne : i ≠ .init ch) : Stalled ch t := by
  refine ⟨exec_statusIsIdle hst.status h hne, ((exec_phyBusy_ie h).1 _).trans hst.phyBusy, ?_⟩
  rw [← Bool.not_eq_true]
  intro harmed
  obtain ⟨ch', b, -, hev, hidle, -⟩ := (onlyTransmitArmsAndOnlyInitDisarms i s t _ h).1 hst.pend harmed
  obtain rfl := txev_inj.mp hev
  simp [hst.status] at hidle

/-- The UART handlers leave the BUS channel (R168). -/
theorem dispatch_keepsBus {e : EventSource} (d : Draws) (s : State) (hne : e ≠ .busEv) :
    KeepsBus s (dispatch e d s) := by
  cases e with
  | busEv => exact absurd rfl hne
  | utxEv => simpa [keepsBus_iff, dispatch_utxEv] using (utxHandler_keeps d (s.setPend .utxEv false)).1
  | urxEv => simpa [keepsBus_iff, dispatch_urxEv] using (urxHandler_keeps d (s.setPend .urxEv false)).1

/-- The BUS handler leaves the UART channel (R168). -/
theorem dispatch_busEv_keepsUart (d : Draws) (s : State) : KeepsUart s (dispatch .busEv d s) := by
  simpa [keepsUart_iff, dispatch_busEv] using (busHandler_keeps d (s.setPend .busEv false)).1

/-- No receive makes the UART idle (R164). -/
theorem urxHandler_statusIsIdle (d : Draws) (hs : s.statusIsIdle .uart = false) :
    (urxHandler d s).statusIsIdle .uart = false := by
  rcases urxHandler_cases d s with ⟨v, h, hv⟩ | h <;> rw [h]
  · simpa [State.statusIsIdle] using hv
  · simpa [State.statusIsIdle] using hs

/-- A dispatch of another source keeps the stall. -/
theorem dispatch_stalled {e : EventSource} (d : Draws) (hst : Stalled ch s) (hne : e ≠ txev ch) :
    Stalled ch (dispatch e d s) := by
  obtain ⟨hstatus, hbusy, hpend⟩ := hst
  cases ch with
  | bus =>
    obtain ⟨-, -, hstatus', hpend', hbusy'⟩ := dispatch_keepsBus d s hne
    exact ⟨by simpa [State.statusIsIdle, hstatus'] using hstatus, hbusy'.trans hbusy, hpend'.trans hpend⟩
  | uart =>
    cases e with
    | busEv =>
      obtain ⟨-, -, hstatus', hpend', -, hbusy'⟩ := dispatch_busEv_keepsUart d s
      exact ⟨by simpa [State.statusIsIdle, hstatus'] using hstatus, hbusy'.trans hbusy, hpend'.trans hpend⟩
    | utxEv => exact absurd rfl hne
    | urxEv =>
      obtain ⟨-, -, -, hbusy', hpend', -⟩ := urxHandler_keeps d (s.setPend .urxEv false)
      rw [dispatch_urxEv]
      exact ⟨urxHandler_statusIsIdle d (by simpa [State.statusIsIdle] using hstatus),
        by simpa [pathOf, hbusy'] using hbusy, by simpa [txev, hpend'] using hpend⟩

/-- Completing another path keeps the stall (R197). -/
theorem complete_stalled {p : TxPath} (hst : Stalled ch s) (hne : p ≠ pathOf ch) : Stalled ch (complete p s) := by
  obtain ⟨hstatus, hbusy, hpend⟩ := hst
  refine ⟨?_, by simp [hne.symm, hbusy], ?_⟩
  · rwa [statusIsIdle_of_keepsStatus (s := s) (by simp [complete, keepsStatus_iff])]
  · simpa [complete, txev_eq_evOf_iff, hne] using hpend

/-- An arrival keeps the stall (R198). -/
theorem arrive_stalled (hst : Stalled ch s) : Stalled ch (arrive s) := by
  obtain ⟨hstatus, hbusy, hpend⟩ := hst
  refine ⟨?_, by simpa using hbusy, ?_⟩
  · rwa [statusIsIdle_of_keepsStatus (s := s) (by simp [arrive, keepsStatus_iff])]
  · simpa [arrive, txev_ne_urxEv] using hpend

/-- A stalled channel stays stalled and writes nothing until its INIT (R228 to R230): the INIT is the only command that
leaves the stall, and neither the send event's dispatch nor the path's completion is enabled. -/
theorem step_stalled (hst : Stalled ch s) (h : step s = .next t) :
    RunsCommand s (.init ch) ∨ Stalled ch t ∧ WritesNothing ch s t := by
  have hst' : Stalled ch (afterChoice s) := afterChoice_stalled hst
  have hsame {u : State} (hu : Stalled ch u) (hout : u.out = s.out) : Stalled ch u ∧ WritesNothing ch s u :=
    ⟨hu, writesNothing_of_same_out hout⟩
  rcases step_cases h with ⟨-, -, rfl⟩ | ⟨hm, hd, payload, rest, i, hf, hdec, he⟩ |
    ⟨-, hd, payload, rest, why, -, -, rfl⟩ | ⟨e, d, -, hc, rfl⟩ | ⟨e, d, -, -, rfl⟩ | ⟨p, -, hp, rfl⟩ |
    ⟨p, -, -, rfl⟩ | ⟨-, rfl⟩
  case inr.inl =>
    by_cases hinit : i = .init ch
    · exact .inl ⟨hm, hd, payload, rest, hf, hinit ▸ hdec⟩
    · exact .inr ⟨exec_stalled (acceptCommand_stalled hst') he hinit, writesNothing_of_answer (exec_out he)⟩
  case inr.inr.inl =>
    exact .inr ⟨answerIllegal_stalled (acceptCommand_stalled hst'), writesNothing_of_answer ⟨_, rfl⟩⟩
  case inr.inr.inr.inl =>
    obtain ⟨-, hpend, -⟩ := (canDispatch_iff s e).mp hc
    have hne : e ≠ txev ch := fun heq => by simp [heq, hst.pend] at hpend
    have hstd := dispatch_stalled d hst' hne
    have hw := dispatch_writesAtMostOnce e d (afterChoice s)
    exact .inr ⟨hstd, by simpa [WritesNothing] using writesNothing_of_not_busy hw hstd.phyBusy⟩
  case inr.inr.inr.inr.inr.inl =>
    have hne : p ≠ pathOf ch := fun heq => by simp [heq, hst.phyBusy] at hp
    exact .inr (hsame (complete_stalled hst' hne) (by simp [complete]))
  case inr.inr.inr.inr.inr.inr.inr =>
    exact .inr (hsame (arrive_stalled hst') (by simp [arrive]))
  all_goals exact .inr (hsame hst' (by simp))

/-- With BUS_EV not pending only FG writes BUS.status: by INIT, or by TRANSMIT on a full BTX (R30, R140). -/
theorem step_busStatus (hp : s.pendBus = false) (h : step s = .next t) :
    t.busStatus = s.busStatus ∨ RunsCommand s (.init .bus) ∨
      t.busStatus = .bufferOverflow ∧ s.btx.len.toNat = s.params.cBtx.val ∧
        ∃ b, RunsCommand s (.transmit .bus b) := by
  rcases step_cases h with ⟨-, -, rfl⟩ | ⟨hm, hd, payload, rest, i, hf, hdec, he⟩ |
    ⟨-, hd, payload, rest, why, -, -, rfl⟩ | ⟨e, d, -, hc, rfl⟩ | ⟨e, d, -, -, rfl⟩ | ⟨p, -, -, rfl⟩ |
    ⟨p, -, -, rfl⟩ | ⟨-, rfl⟩
  case inr.inl =>
    have hruns : RunsCommand s i := ⟨hm, hd, payload, rest, hf, hdec⟩
    by_cases hsame : t.busStatus = s.busStatus
    · exact .inl hsame
    · rcases (onlyFullTransmitAndInitWriteAStatus i _ t he).1 (by simpa [acceptCommand] using hsame) with
        ⟨b, rfl, hfull, hovf⟩ | ⟨rfl, -⟩
      · exact .inr (.inr ⟨hovf, by simpa [acceptCommand] using hfull, b, hruns⟩)
      · exact .inr (.inl hruns)
  case inr.inr.inr.inl =>
    obtain ⟨-, hpend, -⟩ := (canDispatch_iff s e).mp hc
    have hne : e ≠ .busEv := fun heq => by simp [heq, hp] at hpend
    exact .inl (by simpa using (dispatch_keepsBus d (afterChoice s) hne).status)
  all_goals exact .inl (by simp [acceptCommand, answerIllegal, complete, arrive])

/-- Settles O46: the stall by `step_stalled`, the status by `step_busStatus`. -/
theorem stalledBusStaysStalledUntilInit : Obligations.StalledBusStaysStalledUntilInit := by
  intro s t hst h
  rcases step_stalled (stalled_bus_iff.mpr hst) h with hinit | ⟨hst', hwrites⟩
  · exact .inl hinit
  · obtain ⟨-, -, hpend⟩ := hst
    rcases step_busStatus hpend h with hsame | hinit | hovf
    · exact .inr ⟨stalled_bus_iff.mp hst', hwrites, .inl hsame⟩
    · exact .inl hinit
    · exact .inr ⟨stalled_bus_iff.mp hst', hwrites, .inr hovf⟩

/-- Settles O47, by `step_stalled`. -/
theorem stalledUartTransmitStaysStalledUntilInit : Obligations.StalledUartTransmitStaysStalledUntilInit := by
  intro s t hst h
  rcases step_stalled (stalled_uart_iff.mpr hst) h with hinit | ⟨hst', hwrites⟩
  · exact .inl hinit
  · exact .inr ⟨stalled_uart_iff.mp hst', hwrites⟩

/-! ## A command, the completion of the transfer under way and its event -/

theorem core_run_succ (n : Nat) (h : step s = .next t) : core.run (n + 1) s = core.run n t := by
  simp only [Host.Core.run]
  rw [show core.step s = .next t from h]

/-- ARB_ORDER looks at the latches of the other sources only (R201): a source stands in the list once. -/
theorem arbAllowed_of_same_others {e : EventSource} (hp : t.params = s.params)
    (hothers : ∀ e', e' ≠ e → t.pend e' = s.pend e') (h : ArbAllowed s e) : ArbAllowed t e := by
  rcases h with hfree | ⟨order, hfixed, pre, post, hsplit, hpre⟩
  · exact .inl (hp ▸ hfree)
  · refine .inr ⟨order, hp ▸ hfixed, pre, post, hsplit, fun e' hmem => ?_⟩
    have hnodup : (pre ++ e :: post).Nodup := hsplit ▸ order.property.2
    have hne : e' ≠ e := (List.nodup_append.mp hnodup).2.2 e' hmem e List.mem_cons_self
    rw [hothers e' hne, hpre e' hmem]

/-- `w` is the state the BUS_EV handler starts from when the transfer under way in `s` completes and its event is
dispatched: both latches of the transfer are cleared (R196, R197). -/
structure BusEventStart (s w : State) : Prop where
  params : w.params = s.params
  btx : w.btx = s.btx
  brx : w.brx = s.brx
  status : w.busStatus = s.busStatus
  out : w.out = s.out
  pend : w.pendBus = false
  phyBusy : w.phyBusyBus = false

/-- The completion of the byte on the wire and the dispatch of its event run the BUS handler. -/
theorem run_complete_dispatch {d : Draws} {ms : List Move} (hs : s.sched = .complete .bus :: .dispatch .busEv d :: ms)
    (hie : s.ie = true) (hbusy : s.phyBusyBus = true) (ha : ArbAllowed s .busEv) :
    ∃ w, core.run 2 s = .next (busHandler d w) ∧ BusEventStart s w := by
  have hcomplete : step s = .next (complete .bus (s.setSched (.dispatch .busEv d :: ms))) := by
    rw [step_cons hs]
    simp [runMove, hbusy]
  have hdispatches : Dispatches (complete .bus (s.setSched (.dispatch .busEv d :: ms))) .busEv d ms :=
    ⟨by simp [complete], by simp [hie], by simp [complete, evOf],
      arbAllowed_of_same_others (by simp) (fun e' hne => by simp [complete, evOf, hne]) ha⟩
  refine ⟨((complete .bus (s.setSched (.dispatch .busEv d :: ms))).setSched ms).setPend .busEv false, ?_, ?_⟩
  · rw [core_run_succ 1 hcomplete, core_run_succ 0 (step_of_dispatches hdispatches)]
    rfl
  · constructor <;> simp [complete, evOf]

/-- The step of a one-word command at the head of the port (R194). -/
theorem step_of_oneWord {ms : List Move} {rest : List Word} {h : Word} (hs : s.sched = .fg :: ms)
    (hfg : s.fg = encode i ++ rest) (he : encode i = [h]) (hw : i.wellFormed = true) :
    step s = exec i (((s.setSched ms).setFg rest).emit (.command h [])) := by
  obtain ⟨h', payload, he', -, hframe⟩ := framedEncoding i hw
  obtain ⟨rfl, rfl⟩ : h = h' ∧ [] = payload := by simpa using he.symm.trans he'
  exact step_of_command hs (hfg ▸ hframe rest) (decode_encode he)

/-- A one-word command, then the completion of the byte on the wire and its event: the BUS handler runs on the
state `u` the command leaves. -/
theorem run_command_complete_dispatch {d : Draws} {ms : List Move} {rest : List Word} {h : Word}
    (hs : s.sched = .fg :: .complete .bus :: .dispatch .busEv d :: ms) (hfg : s.fg = encode i ++ rest)
    (he : encode i = [h]) (hw : i.wellFormed = true) (hie : s.ie = true) (hbusy : s.phyBusyBus = true)
    (ha : ArbAllowed s .busEv)
    (hexec : exec i (((s.setSched (.complete .bus :: .dispatch .busEv d :: ms)).setFg rest).emit (.command h [])) =
      .next u)
    (hie' : u.ie = s.ie) (hothers : ∀ e, e ≠ .busEv → u.pend e = s.pend e) :
    ∃ w, core.run 3 s = .next (busHandler d w) ∧ BusEventStart u w := by
  obtain ⟨v, rc, val, hv, hin, -, -⟩ := exec_responds i _
  obtain rfl := Host.Outcome.next.inj (hexec.symm.trans hv)
  have hbusy' := (exec_phyBusy_ie hexec).1 .bus
  rw [core_run_succ 2 ((step_of_oneWord hs hfg he hw).trans hexec)]
  exact run_complete_dispatch (ms := ms) (by simp [hin.sched]) (hie'.trans hie) (by simpa [hbusy] using hbusy')
    (arbAllowed_of_same_others (by simpa using exec_params hexec) hothers ha)

theorem exec_transmit_of_full (ch : Channel) (b : Byte)
    (h : (s.queue (txq ch)).len.toNat = (s.cap (txq ch)).val) :
    exec (.transmit ch b) s = .next ((s.setOverflow ch).respond .ok 0#16) := by
  rw [exec_transmit, transmitEffect_of_full ch b h]

/-- Settles O49: TRANSMIT finds BTX full and sets `BufferOverflow`, so the event receives nothing and only sends. -/
theorem fullTransmitLosesTheBusReceiveByte : Obligations.FullTransmitLosesTheBusReceiveByte := by
  intro s d x b queued rest ms hi hs hfg hie ha hstatus hbusy hcontent hlength hcoll
  have hfull : s.btx.len.toNat = s.params.cBtx.val := by
    rw [← hlength, ← hcontent, content_def, content_length, queue_btx]
  have hsome : s.btx.len ≠ 0#16 := fun hzero => by
    simp [content_def, content_eq_nil_iff.mpr hzero] at hcontent
  obtain ⟨hbyte, hqueued⟩ : (qPop s.params.cBtx s.btx).2.1 = b ∧
      (qPop s.params.cBtx s.btx).2.2.content s.params.cBtx = queued :=
    List.cons.inj ((qPop_content (inv_iff.mp hi .btx) hsome).symm.trans hcontent)
  obtain ⟨w, hrun, hparams, hbtx, hbrx, hovf, hout, -⟩ :=
    run_command_complete_dispatch hs hfg rfl rfl hie hbusy ha (exec_transmit_of_full .bus x hfull) rfl (by simp)
  refine ⟨_, hrun, ?_⟩
  rw [busHandler_of_not_busy hcoll (by simp [hovf]), busSend_of_some (by simpa [hbtx] using hsome)]
  simp [hparams, hbtx, hbrx, hout, hbyte, hqueued, content_def, encode, responseWord_ok_zero]

/-- Settles O50: INIT leaves the byte on the wire, and its event finds `Idle` and an empty BTX. -/
theorem initWithAByteOnTheWireDropsItsEvent : Obligations.InitWithAByteOnTheWireDropsItsEvent := by
  intro s d rest ms hi hs hfg hie ha hbusy hcoll
  obtain ⟨w, hrun, -, hbtx, hbrx, hidle, hout, hpend, hbusy'⟩ :=
    run_command_complete_dispatch hs hfg rfl rfl hie hbusy ha (exec_init .bus) rfl
      (fun e hne => by simp [initEffect_pend, hne])
  refine ⟨_, hrun, ?_⟩
  replace hidle : w.busStatus = .idle := hidle
  replace hbtx : w.btx = qPopAll s.btx := hbtx
  replace hbrx : w.brx = qPopAll s.brx := hbrx
  rw [busHandler_of_not_busy hcoll (by simp [hidle]), busSend_of_empty (by simp [hbtx, qPopAll])]
  simp [hpend, hbusy', hbtx, hbrx, hout, content_def, encode, responseWord_ok_zero, initEffect_keepsInputs_out]

end Sys2Proof.Machine

/-! PROOFS of the family 42_event_handlers: the frame of a dispatch (R168), the transition tables of the three handlers
(R160 to R165), the bytes that reach a peripheral (R166), and the cycle of a one-byte bus transfer (R160, R197). -/

namespace Sys2Proof.Machine

variable {s t : State} {ch : Channel} {d : Draws} {ms : List Move}

/-! ## The frame of a dispatch -/

/-- A dispatch takes nothing off the scheduler's choices: the step that runs it has done so (R200). -/
theorem dispatch_sched_tick (e : EventSource) (d : Draws) (s : State) :
    (dispatch e d s).sched = s.sched ∧ (dispatch e d s).tick = s.tick := by
  cases e with
  | busEv =>
    obtain ⟨-, -, -, hsched, htick⟩ := busHandler_keeps d (s.setPend .busEv false)
    exact ⟨by simpa [dispatch_busEv] using hsched, by simpa [dispatch_busEv] using htick⟩
  | utxEv =>
    obtain ⟨-, -, -, -, -, hsched, htick⟩ := utxHandler_keeps d (s.setPend .utxEv false)
    exact ⟨by simpa [dispatch_utxEv] using hsched, by simpa [dispatch_utxEv] using htick⟩
  | urxEv =>
    obtain ⟨-, -, -, -, -, -, hsched, htick, -⟩ := urxHandler_keeps d (s.setPend .urxEv false)
    exact ⟨by simpa [dispatch_urxEv] using hsched, by simpa [dispatch_urxEv] using htick⟩

/-- A dispatch clears its own latch before the handler runs, and no handler writes a latch (R196). -/
theorem dispatch_pend (e e' : EventSource) (d : Draws) (s : State) :
    (dispatch e d s).pend e' = (s.setPend e false).pend e' := by
  cases e with
  | busEv =>
    obtain ⟨huart, -, hown, -, -⟩ := busHandler_keeps d (s.setPend .busEv false)
    rw [dispatch_busEv]
    cases e'
    · exact hown
    · exact huart.pendTx
    · exact huart.pendRx
  | utxEv =>
    obtain ⟨hbus, -, -, hown, hrx, -, -⟩ := utxHandler_keeps d (s.setPend .utxEv false)
    rw [dispatch_utxEv]
    cases e'
    · exact hbus.pend
    · exact hown
    · exact hrx
  | urxEv =>
    obtain ⟨hbus, -, -, -, htx, hown, -, -, -⟩ := urxHandler_keeps d (s.setPend .urxEv false)
    rw [dispatch_urxEv]
    cases e'
    · exact hbus.pend
    · exact htx
    · exact hown

/-- The UTX_EV handler leaves URX (R168). -/
theorem dispatch_utxEv_urx (d : Draws) (s : State) : (dispatch .utxEv d s).urx = s.urx := by
  obtain ⟨-, -, hurx, -⟩ := utxHandler_keeps d (s.setPend .utxEv false)
  simpa [dispatch_utxEv] using hurx

/-- The URX_EV handler leaves the transmit path and writes nothing (R168). -/
theorem dispatch_urxEv_keeps (d : Draws) (s : State) :
    (dispatch .urxEv d s).utx = s.utx ∧ (dispatch .urxEv d s).phyBusyUtx = s.phyBusyUtx ∧
      (dispatch .urxEv d s).out = s.out := by
  obtain ⟨-, -, hutx, hbusy, -, -, -, -, hout⟩ := urxHandler_keeps d (s.setPend .urxEv false)
  rw [dispatch_urxEv]
  exact ⟨by simpa using hutx, by simpa using hbusy, by simpa using hout⟩

/-- Settles O37, by the frames of the three handlers. -/
theorem handlersTouchTheirOwnChannelOnly : Obligations.HandlersTouchTheirOwnChannelOnly := by
  intro s e d
  refine ⟨dispatch_keepsPort e d s, fun e' hne => by simp [dispatch_pend, hne], by simp [dispatch_pend], ?_⟩
  cases e with
  | busEv => exact dispatch_busEv_keepsUart d s
  | utxEv => exact ⟨dispatch_keepsBus d s (by simp), dispatch_utxEv_urx d s⟩
  | urxEv =>
    obtain ⟨hutx, hbusy, -⟩ := dispatch_urxEv_keeps d s
    exact ⟨dispatch_keepsBus d s (by simp), hutx, hbusy⟩

/-! ## The send halves -/

theorem sendsOldest_of_nil (h : s.content (txq ch) = []) : SendsOldest ch s t ↔ SendsNothing ch s t := by
  simp [SendsOldest, SendsNothing, h]

theorem sendsOldest_of_cons {b : Byte} {rest : List Byte} (h : s.content (txq ch) = b :: rest) :
    SendsOldest ch s t ↔
      t.content (txq ch) = rest ∧ t.out = s.out ++ [.write ch b] ∧ t.phyBusy (pathOf ch) = true := by
  simp [SendsOldest, h]

/-! A send half reads the send queue, the observation and the busy latch only, so updates of other fields before it do
not matter. -/

@[simp] theorem sendsOldest_setPend (e : EventSource) (v : Bool) :
    SendsOldest ch (s.setPend e v) t ↔ SendsOldest ch s t := by simp [SendsOldest]
@[simp] theorem sendsOldest_setSched (ms : List Move) : SendsOldest ch (s.setSched ms) t ↔ SendsOldest ch s t := by
  simp [SendsOldest]

theorem sendsOldest_setQueue_rxq (q : Queue) :
    SendsOldest ch (s.setQueue (rxq ch) q) t ↔ SendsOldest ch s t := by
  have hne : txq ch ≠ rxq ch := by cases ch <;> simp [txq, rxq]
  simp [SendsOldest, hne]

/-- The BUS send half sends the oldest byte of BTX (R160). -/
theorem busSend_sendsOldest (hi : s.Inv) : SendsOldest .bus s (busSend s) := by
  by_cases h : s.btx.len = 0#16
  · rw [busSend_of_empty h, sendsOldest_of_nil (ch := .bus) (content_eq_nil_iff.mpr h)]
    simp [SendsNothing]
  · rw [busSend_of_some h, sendsOldest_of_cons (ch := .bus) (qPop_content (inv_iff.mp hi .btx) h)]
    simp [txq, pathOf]

/-- The UART send half sends the oldest byte of UTX, with an error or without (R162). -/
theorem utxSend_sendsOldest (err : Option UartStatus) (hi : s.Inv) : SendsOldest .uart s (utxSend err s) := by
  by_cases h : s.utx.len = 0#16
  · rw [utxSend_of_empty err h, sendsOldest_of_nil (ch := .uart) (content_eq_nil_iff.mpr h)]
    simp [SendsNothing]
  · rw [utxSend_of_some err h, sendsOldest_of_cons (ch := .uart) (qPop_content (inv_iff.mp hi .utx) h)]
    simp [txq, pathOf]

/-- Receiving a byte first, with room for it or without, leaves what the BUS send half sends (R160). -/
theorem busSend_setQueue_brx_sendsOldest (hi : s.Inv) (b : Byte) :
    SendsOldest .bus s (busSend (s.setQueue .brx (qPush s.params.cBrx s.brx b).2)) :=
  (sendsOldest_setQueue_rxq (ch := .bus) _).mp
    (busSend_sendsOldest (inv_setQueue hi .brx (qPush_wf (inv_iff.mp hi .brx) b)))

theorem busSend_busStatus (s : State) : (busSend s).busStatus = if s.content .btx = [] then .idle else .busy := by
  by_cases h : s.btx.len = 0#16
  · simp [busSend_of_empty h, content_def, content_eq_nil_iff, h]
  · simp [busSend_of_some h, content_def, content_eq_nil_iff, h]

theorem utxSend_uartStatus (err : Option UartStatus) (s : State) :
    (utxSend err s).uartStatus = err.getD (if s.content .utx = [] then .txIdle else .txBusy) := by
  by_cases h : s.utx.len = 0#16
  · simp [utxSend_of_empty err h, content_def, content_eq_nil_iff, h]
  · simp [utxSend_of_some err h, content_def, content_eq_nil_iff, h]

theorem busSend_brx (s : State) : (busSend s).brx = s.brx := by
  obtain ⟨-, -, hbrx, -⟩ := busSend_keeps s
  exact hbrx

theorem busSend_content_brx (s : State) : (busSend s).content .brx = s.content .brx := by
  obtain ⟨-, hport, hbrx, -⟩ := busSend_keeps s
  exact content_of_same .brx hport.params hbrx

/-- A push into a queue with room puts the byte at the back of the queue's content (R100). -/
theorem content_setQueue_qPush (hi : s.Inv) (id : QueueId) (b : Byte)
    (hroom : (s.queue id).len.toNat ≠ (s.cap id).val) :
    (s.setQueue id (qPush (s.cap id) (s.queue id) b).2).content id = s.content id ++ [b] := by
  rw [content_setQueue, if_pos rfl, qPush_content (inv_iff.mp hi id) b hroom, content_def]

/-! ## The transition table of BUS_EV -/

/-- A handler starts from a state with the queue invariant (R196). -/
theorem inv_setPend_setSched (hi : s.Inv) (e : EventSource) (ms : List Move) : ((s.setSched ms).setPend e false).Inv :=
  inv_of_same_queues hi (by simp) (by simp)

/-- Settles O34: each row by the handler's case and what the send half does. -/
theorem busEventFollowsItsTransitionTable : Obligations.BusEventFollowsItsTransitionTable := by
  intro s d ms hi hd
  have hw := inv_setPend_setSched hi .busEv ms
  obtain ⟨hport, -, hpend, huart⟩ := handlersTouchTheirOwnChannelOnly (s.setSched ms) .busEv d
  obtain ⟨hsched, htick⟩ := dispatch_sched_tick .busEv d (s.setSched ms)
  refine ⟨_, step_of_dispatches hd, hpend, by simpa [keepsUart_iff] using huart, by simpa [keepsPort_iff] using hport,
    hsched, htick, ?_⟩
  rw [dispatch_busEv]
  split
  next hcoll =>
    rw [busHandler_of_collision hcoll]
    exact ⟨rfl, by simp, by simp [SendsNothing]⟩
  next hcoll =>
    have hcoll : d.collision = false := by simpa using hcoll
    split
    next hbusy =>
      split
      next hfull =>
        rw [busHandler_of_busy_full hcoll (by simpa using hbusy) (by simpa using hfull)]
        exact ⟨rfl, by simp, by simp [SendsNothing]⟩
      next hroom =>
        rw [busHandler_of_busy_room hcoll (by simpa using hbusy) (by simpa using hroom)]
        refine ⟨?_, by simpa using busSend_setQueue_brx_sendsOldest hw d.busRx, by simp [busSend_busStatus]⟩
        rw [busSend_content_brx]
        simpa using content_setQueue_qPush hw .brx d.busRx (by simpa using hroom)
    next hidle =>
      rw [busHandler_of_not_busy hcoll (by simpa using hidle)]
      exact ⟨by simp [busSend_brx], by simpa using busSend_sendsOldest hw, by simp [busSend_busStatus]⟩

/-! ## The transition table of UTX_EV -/

theorem utxError_of_ok (hf : d.frameError = false) (hp : d.parityError = false) : utxError d = none := by
  simp [utxError, hf, hp]

/-- A frame error counts before a parity error (R162, decision D17). -/
theorem utxError_of_error (h : d.frameError = true ∨ d.parityError = true) :
    utxError d = some (if d.frameError = true then .frameError else .parityError) := by
  cases hf : d.frameError with
  | true => simp [utxError, hf]
  | false =>
    have hp : d.parityError = true := by simpa [hf] using h
    simp [utxError, hf, hp]

theorem utxHandler_of_ok (h : utxError d = none) : utxHandler d s = utxSend none s := by
  simp [utxHandler, h]

theorem utxHandler_of_error_stops {err : UartStatus} (h : utxError d = some err)
    (hstops : s.params.uartTxErrStops = true) : utxHandler d s = s.setUartStatus err := by
  simp [utxHandler, h, hstops]

theorem utxHandler_of_error_sends {err : UartStatus} (h : utxError d = some err)
    (hstops : s.params.uartTxErrStops ≠ true) : utxHandler d s = utxSend (some err) s := by
  simp [utxHandler, h, hstops]

/-- Settles O35: each row by the handler's case, and the status by the error or by what the send half found in UTX. -/
theorem uartTransmitEventFollowsItsTransitionTable : Obligations.UartTransmitEventFollowsItsTransitionTable := by
  intro s d ms hi hd
  have hw := inv_setPend_setSched hi .utxEv ms
  obtain ⟨hport, hothers, hpend, hbus, hurx⟩ := handlersTouchTheirOwnChannelOnly (s.setSched ms) .utxEv d
  obtain ⟨hsched, htick⟩ := dispatch_sched_tick .utxEv d (s.setSched ms)
  refine ⟨_, step_of_dispatches hd, hpend, hothers .urxEv (by simp), hurx, by simpa [keepsBus_iff] using hbus,
    by simpa [keepsPort_iff] using hport, hsched, htick, ?_⟩
  rw [dispatch_utxEv]
  split
  next herr =>
    have herror := utxError_of_error herr
    by_cases hstops : s.params.uartTxErrStops = true
    · rw [utxHandler_of_error_stops herror (by simpa using hstops)]
      exact ⟨rfl, by simp [hstops, SendsNothing]⟩
    · rw [utxHandler_of_error_sends herror (by simpa using hstops)]
      exact ⟨by simp [utxSend_uartStatus], by simpa [hstops] using utxSend_sendsOldest _ hw⟩
  next hok =>
    obtain ⟨hf, hp⟩ : d.frameError = false ∧ d.parityError = false := by simpa using hok
    rw [utxHandler_of_ok (utxError_of_ok hf hp)]
    exact ⟨by simpa using utxSend_sendsOldest none hw, by simp [utxSend_uartStatus]⟩

/-! ## The transition table of URX_EV -/

theorem urxHandler_of_frameError (h : d.frameError = true) : urxHandler d s = s.setUartStatus .frameError := by
  simp [urxHandler, h]

theorem urxHandler_of_dataOverrun (hf : d.frameError = false) (h : d.dataOverrun = true) :
    urxHandler d s = s.setUartStatus .dataOverrun := by
  simp [urxHandler, hf, h]

theorem urxHandler_of_parityError (hf : d.frameError = false) (ho : d.dataOverrun = false) (h : d.parityError = true) :
    urxHandler d s = s.setUartStatus .parityError := by
  simp [urxHandler, hf, ho, h]

/-- Settles O36: each row by the handler's case. -/
theorem uartReceiveEventFollowsItsTransitionTable : Obligations.UartReceiveEventFollowsItsTransitionTable := by
  intro s d ms hi hd
  have hw := inv_setPend_setSched hi .urxEv ms
  obtain ⟨hport, hothers, hpend, hbus, hutx, hbusy⟩ := handlersTouchTheirOwnChannelOnly (s.setSched ms) .urxEv d
  obtain ⟨hsched, htick⟩ := dispatch_sched_tick .urxEv d (s.setSched ms)
  obtain ⟨-, -, hout⟩ := dispatch_urxEv_keeps d (s.setSched ms)
  refine ⟨_, step_of_dispatches hd, hpend, hothers .utxEv (by simp), hutx, hbusy, by simpa [keepsBus_iff] using hbus,
    by simpa [keepsPort_iff] using hport, hsched, htick, hout, ?_⟩
  rw [dispatch_urxEv]
  cases hf : d.frameError with
  | true => simp [urxHandler_of_frameError hf]
  | false =>
    cases ho : d.dataOverrun with
    | true => simp [urxHandler_of_dataOverrun hf ho]
    | false =>
      cases hp : d.parityError with
      | true => simp [urxHandler_of_parityError hf ho hp]
      | false =>
        by_cases hfull : s.urx.len.toNat = s.params.cUrx.val
        · rw [urxHandler_of_ok_full hf ho hp (by simpa using hfull)]
          simp [hfull]
        · rw [urxHandler_of_ok_room hf ho hp (by simpa using hfull)]
          simpa [hfull] using content_setQueue_qPush hw .urx d.uartRx (by simpa using hfull)

/-! ## The bytes that reach a peripheral -/

/-- The BUS_EV handler runs the send half or none of it (R160). -/
theorem busHandler_sends (hi : s.Inv) (d : Draws) :
    SendsNothing .bus s (busHandler d s) ∨ SendsOldest .bus s (busHandler d s) := by
  rcases busHandler_cases d s with h | h | h | h <;> rw [h]
  · exact .inl (by simp [SendsNothing])
  · exact .inl (by simp [SendsNothing])
  · exact .inr (busSend_setQueue_brx_sendsOldest hi d.busRx)
  · exact .inr (busSend_sendsOldest hi)

/-- The UTX_EV handler runs the send half or none of it (R162). -/
theorem utxHandler_sends (hi : s.Inv) (d : Draws) :
    SendsNothing .uart s (utxHandler d s) ∨ SendsOldest .uart s (utxHandler d s) := by
  rcases utxHandler_cases d s with ⟨err, h, -⟩ | ⟨err, h, -⟩ <;> rw [h]
  · exact .inl (by simp [SendsNothing])
  · exact .inr (utxSend_sendsOldest err hi)

/-- Nothing was written, or the oldest byte of the channel's send queue was taken out and written, and its path is busy
(R166). -/
def WritesOldestAtMost (ch : Channel) (s t : State) : Prop :=
  t.out = s.out ∨
    ∃ b, t.out = s.out ++ [.write ch b] ∧ s.content (txq ch) = b :: t.content (txq ch) ∧ t.phyBusy (pathOf ch) = true

theorem writesOldestAtMost_of_sends (h : SendsNothing ch s t ∨ SendsOldest ch s t) : WritesOldestAtMost ch s t := by
  rcases h with ⟨-, hout, -⟩ | hsends
  · exact .inl hout
  · cases hc : s.content (txq ch) with
    | nil =>
      obtain ⟨-, hout, -⟩ := (sendsOldest_of_nil hc).mp hsends
      exact .inl hout
    | cons b rest =>
      obtain ⟨hrest, hout, hbusy⟩ := (sendsOldest_of_cons hc).mp hsends
      exact .inr ⟨b, hout, by rw [hc, hrest], hbusy⟩

/-- A dispatch writes only for the channel whose send event it is, and then the oldest byte (R160, R162, R164). -/
theorem dispatch_writesOldestAtMost (hi : s.Inv) (e : EventSource) (d : Draws) :
    (dispatch e d s).out = s.out ∨ ∃ ch, e = txev ch ∧ WritesOldestAtMost ch s (dispatch e d s) := by
  have hi' : (s.setPend e false).Inv := inv_of_same_queues hi (by simp) (by simp)
  cases e with
  | busEv =>
    have hsends := busHandler_sends hi' d
    exact .inr ⟨.bus, rfl, writesOldestAtMost_of_sends (by simpa [dispatch_busEv, SendsNothing] using hsends)⟩
  | utxEv =>
    have hsends := utxHandler_sends hi' d
    exact .inr ⟨.uart, rfl, writesOldestAtMost_of_sends (by simpa [dispatch_utxEv, SendsNothing] using hsends)⟩
  | urxEv =>
    obtain ⟨-, -, hout⟩ := dispatch_urxEv_keeps d s
    exact .inl hout

/-- Settles O42: FG adds a command and its response, the other steps but a dispatch add nothing, and a dispatch writes
at most the oldest byte of its own channel. -/
theorem everyWrittenByteIsTheOldestQueuedByte : Obligations.EveryWrittenByteIsTheOldestQueuedByte := by
  intro s t hi h
  rcases step_cases h with ⟨-, -, rfl⟩ | ⟨-, hd, payload, rest, i, -, -, he⟩ |
    ⟨-, hd, payload, rest, why, -, -, rfl⟩ | ⟨e, d, hm, hc, rfl⟩ | ⟨e, d, -, -, rfl⟩ | ⟨p, -, -, rfl⟩ |
    ⟨p, -, -, rfl⟩ | ⟨-, rfl⟩
  case inr.inl =>
    obtain ⟨w, hout⟩ := exec_out he
    exact ⟨[.command hd payload, .response w], by simp [hout, acceptCommand], by simp⟩
  case inr.inr.inl =>
    exact ⟨[.command hd payload, .response (responseWord .illegal 0#16)],
      by simp [answerIllegal, acceptCommand], by simp⟩
  case inr.inr.inr.inl =>
    obtain ⟨hie, hpend, hallowed⟩ := (canDispatch_iff s e).mp hc
    rcases dispatch_writesOldestAtMost (afterChoice_inv hi) e d with hout | ⟨ch, rfl, hout | ⟨b, hout, hoff, hbusy⟩⟩
    · exact ⟨[], by simpa using hout, by simp⟩
    · exact ⟨[], by simpa using hout, by simp⟩
    · refine ⟨[.write ch b], by simpa using hout, fun ch' b' hmem => ?_⟩
      obtain ⟨rfl, rfl⟩ : ch' = ch ∧ b' = b := by simpa using hmem
      exact ⟨⟨d, hm⟩, hie, hpend, hallowed, by simpa using hoff, hbusy⟩
  all_goals exact ⟨[], by simp [complete, arrive], by simp⟩

/-! ## The cycle of a one-byte bus transfer -/

theorem keepsUart_trans {u : State} (h : KeepsUart s t) (h' : KeepsUart t u) : KeepsUart s u :=
  ⟨h'.utx.trans h.utx, h'.urx.trans h.urx, h'.status.trans h.status, h'.pendTx.trans h.pendTx,
    h'.pendRx.trans h.pendRx, h'.phyBusy.trans h.phyBusy⟩

/-- The completion of a bus transfer, when it is the next step: it touches the two BUS latches alone (R197). -/
theorem step_complete_bus (hs : s.sched = .complete .bus :: ms) (hphy : s.phyBusyBus = true) :
    ∃ t, step s = .next t ∧ t.sched = ms ∧ t.pendBus = true ∧ t.phyBusyBus = false ∧ t.btx = s.btx ∧ t.brx = s.brx ∧
      t.busStatus = s.busStatus ∧ t.out = s.out ∧ KeepsUart s t ∧ KeepsPort s t := by
  refine ⟨complete .bus (s.setSched ms), ?_, ?_⟩
  · rw [step_cons hs]
    simp [runMove, hphy]
  · simp [complete, evOf, keepsUart_iff, keepsPort_iff]

/-- A step that leaves the UART channel and the parameters leaves BUS_EV allowed (R201). -/
theorem arbAllowed_busEv_of_keepsUart (hu : KeepsUart s t) (hp : t.params = s.params) (h : ArbAllowed s .busEv) :
    ArbAllowed t .busEv := by
  refine arbAllowed_of_same_others hp (fun e hne => ?_) h
  cases e with
  | busEv => exact absurd rfl hne
  | utxEv => exact hu.pendTx
  | urxEv => exact hu.pendRx

/-- Settles O48: the table of BUS_EV from `Idle` and again from `Busy`, with the completion between the dispatches. -/
theorem busTransferCycleReturnsToIdle : Obligations.BusTransferCycleReturnsToIdle := by
  intro s d₁ d₂ b ms hi hs hie hpend ha hidle hcontent hroom hcoll₁ hcoll₂
  obtain ⟨t, hstep₁, -, huart₁, hport₁, hsched₁, -, hrow₁⟩ :=
    busEventFollowsItsTransitionTable s d₁ _ hi ⟨hs, hie, hpend, ha⟩
  obtain ⟨hbrx₁, hsends₁, hstatus₁⟩ : t.brx = s.brx ∧ SendsOldest .bus s t ∧ t.busStatus = .busy := by
    simpa [hcoll₁, hidle, hcontent] using hrow₁
  obtain ⟨hempty, hout₁, hphy₁⟩ := (sendsOldest_of_cons (ch := .bus) hcontent).mp hsends₁
  obtain ⟨u, hstep₂, hsched₂, hpend₂, hphy₂, hbtx₂, hbrx₂, hstatus₂, hout₂, huart₂, hport₂⟩ :=
    step_complete_bus hsched₁ hphy₁
  have huart : KeepsUart s u := keepsUart_trans huart₁ huart₂
  have hparams : u.params = s.params := hport₂.params.trans hport₁.params
  have hie₂ : u.ie = true := (hport₂.ie.trans hport₁.ie).trans hie
  obtain ⟨v, hstep₃, hpend₃, huart₃, hport₃, -, -, hrow₃⟩ :=
    busEventFollowsItsTransitionTable u d₂ ms (step_inv (step_inv hi hstep₁) hstep₂)
      ⟨hsched₂, hie₂, hpend₂, arbAllowed_busEv_of_keepsUart huart hparams ha⟩
  have hbtx : u.content .btx = [] := (content_of_same .btx hport₂.params hbtx₂).trans hempty
  have hbrx : u.brx = s.brx := hbrx₂.trans hbrx₁
  rw [if_neg (by simp [hcoll₂]), if_pos (hstatus₂.trans hstatus₁), if_neg (by simpa [hbrx, hparams] using hroom),
    if_pos hbtx, sendsOldest_of_nil (ch := .bus) hbtx, content_of_same .brx hparams hbrx] at hrow₃
  obtain ⟨hreceived, ⟨hbtx₃, hout₃, hphy₃⟩, hstatus₃⟩ := hrow₃
  refine ⟨v, ?_, hstatus₃, (content_of_same .btx hport₃.params hbtx₃).trans hbtx, hreceived,
    (hout₃.trans hout₂).trans hout₁, hpend₃, hphy₃.trans hphy₂, keepsUart_trans huart huart₃, hport₃.ie.trans hie₂⟩
  rw [core_run_succ 2 hstep₁, core_run_succ 1 hstep₂, core_run_succ 0 hstep₃]
  rfl

end Sys2Proof.Machine

/-! PROOFS of the family 60_exceptions: which dispatch the arbiter enables (R196, R201), the turns of disabled agents and
the end of a run (R194, R212), completion and arrival (R197, R198), and what fairness gives (R200). -/

namespace Sys2Proof.Machine

variable {s t : State} {e : EventSource} {p : TxPath} {ms : List Move}

/-! ## The arbiter -/

theorem canDispatch_eq_false_iff : canDispatch s e = false ↔ s.ie = false ∨ s.pend e = false ∨ ¬ArbAllowed s e := by
  rw [← Bool.not_eq_true, canDispatch_iff]
  simp only [not_and_or, Bool.not_eq_true]

theorem arbAllowed_of_free (h : s.params.arbOrder = .free) : ArbAllowed s e := .inl h

/-- Under a fixed order with IE 1 the dispatch of the list's first pending source is enabled, and no other (R201). -/
theorem canDispatch_iff_find? {order : PriorityList} (ho : s.params.arbOrder = .fixed order) (hie : s.ie = true) :
    canDispatch s e = true ↔ order.val.find? s.pend = some e := by
  simp only [canDispatch, arbAllows, ho, hie, Bool.true_and, Bool.and_eq_true, beq_iff_eq, and_iff_right_iff_imp]
  exact List.find?_some

/-- A priority list names every source: it has as many distinct entries as there are sources (R7). -/
theorem mem_priorityList (order : PriorityList) (e : EventSource) : e ∈ order.val := by
  obtain ⟨l, hlength, hnodup⟩ := order
  by_contra hnot
  have hsub : e :: l ⊆ [.busEv, .utxEv, .urxEv] := fun e' _ => by cases e' <;> simp
  have hle := ((List.nodup_cons.mpr ⟨hnot, hnodup⟩).subperm hsub).length_le
  simp [hlength] at hle

/-- Settles O38: under a fixed order the enabled dispatch is that of the first pending source of the list, which exists
because the list names every source. -/
theorem arbiterOrderDecidesAmongPendingSources : Obligations.ArbiterOrderDecidesAmongPendingSources := by
  refine fun s => ⟨canDispatch_iff s, fun hfree hie e hp => ?_, fun order ho hie ⟨e₀, hp₀⟩ => ?_⟩
  · exact (canDispatch_iff s e).mpr ⟨hie, hp, arbAllowed_of_free hfree⟩
  · obtain ⟨e, he⟩ := Option.isSome_iff_exists.mp (List.find?_isSome.mpr ⟨e₀, mem_priorityList order e₀, hp₀⟩)
    obtain ⟨-, pre, post, hsplit, hpre⟩ := List.find?_eq_some_iff_append.mp he
    refine ⟨e, (canDispatch_iff_find? ho hie).mpr he, fun e' he' => ?_, pre, post, hsplit, by simpa using hpre⟩
    exact Option.some.inj (((canDispatch_iff_find? ho hie).mp he').symm.trans he)

/-! ## Agents whose step is not enabled -/

/-- Settles O33: each agent tests whether its step is enabled, and its turn passes when the test fails. -/
theorem turnOfADisabledAgentChangesNothing : Obligations.TurnOfADisabledAgentChangesNothing := by
  refine fun s ms => ⟨fun hs hf => ?_, fun e d hs hdis => ?_, fun p hs hidle => ?_⟩ <;> rw [step_cons hs]
  · simp [runMove, fgStep, hf]
  · have hoff : canDispatch (s.setSched ms) e = false := by
      rw [← afterChoice_cons hs, canDispatch_afterChoice]
      exact canDispatch_eq_false_iff.mpr hdis
    simp [runMove, hoff]
  · simp [runMove, hidle]

/-- Once the run has ended no agent's step but an arrival is enabled (R212), so its turn only takes off a choice. -/
theorem step_of_runEnded (hend : RunEnded s) (h : step s = .next t) (hm : nextMove s ≠ .arrive) : t = afterChoice s := by
  obtain ⟨hframe, hmasked, hidle⟩ := hend
  rcases step_cases h with ⟨-, -, ht⟩ | ⟨-, hd, payload, rest, i, hf, -, -⟩ |
    ⟨-, hd, payload, rest, why, hf, -, -⟩ | ⟨e, d, -, hc, -⟩ | ⟨e, d, -, -, ht⟩ | ⟨p, -, hp, -⟩ |
    ⟨p, -, -, ht⟩ | ⟨harrive, -⟩
  · exact ht
  · simp [hframe] at hf
  · simp [hframe] at hf
  · obtain ⟨hie, hpend, -⟩ := (canDispatch_iff s e).mp hc
    rcases hmasked with hie' | hnone
    · simp [hie'] at hie
    · simp [hnone] at hpend
  · exact ht
  · simp [hidle] at hp
  · exact ht
  · exact absurd harrive hm

/-- Settles O51, by `step_of_runEnded`: the block and the port are as before the choice. -/
theorem endedRunOnlyWaitsForArrivals : Obligations.EndedRunOnlyWaitsForArrivals := by
  intro s t hend h hm
  obtain rfl := step_of_runEnded hend h hm
  obtain ⟨hframe, hmasked, hidle⟩ := hend
  exact ⟨⟨by simp, by simp [keepsStatus_iff], by simp [keepsLatches_iff], by simp⟩, by simp, by simp,
    by simpa using hframe, by simpa using hmasked, by simpa using hidle⟩

/-! ## Completion and arrival -/

@[simp] theorem complete_pend (p : TxPath) (s : State) (e : EventSource) :
    (complete p s).pend e = if e = evOf p then true else s.pend e := by simp [complete]

/-- The step whose choice is the completion of a busy path completes it (R197). -/
theorem step_of_nextMove_complete (hm : nextMove s = .complete p) (hbusy : s.phyBusy p = true) :
    step s = .next (complete p (afterChoice s)) := by
  rw [step, hm]
  simp [runMove, hbusy]

theorem step_complete (hs : s.sched = .complete p :: ms) (hbusy : s.phyBusy p = true) :
    step s = .next (complete p (s.setSched ms)) := by
  rw [step_of_nextMove_complete (nextMove_cons hs) hbusy, afterChoice_cons hs]

/-- Settles O40: `complete` writes the path's two latches and nothing else. -/
theorem completionRaisesTheSendEvent : Obligations.CompletionRaisesTheSendEvent := by
  intro s p ms hs hbusy
  refine ⟨_, step_complete hs hbusy, by simp, by simp, fun p' hne => by simp [hne], fun e hne => by simp [hne], ?_⟩
  simp [complete, keepsStatus_iff, keepsPort_iff]

theorem step_arrive (hs : s.sched = .arrive :: ms) : step s = .next (arrive (s.setSched ms)) := by
  rw [step_cons hs, runMove]

/-- A latch holds one event, however often it is set (R33, R198). -/
theorem arrive_arrive (s : State) : arrive (arrive s) = arrive s := rfl

theorem arrive_setSched (s : State) (ms : List Move) : (arrive s).setSched ms = arrive (s.setSched ms) := rfl

/-- Settles O41: `arrive` writes one latch, and writing it again changes nothing (`arrive_arrive`). -/
theorem arrivalRaisesTheReceiveEvent : Obligations.ArrivalRaisesTheReceiveEvent := by
  intro s ms hs
  refine ⟨⟨_, step_arrive hs, ?_⟩, ?_⟩
  · simp +contextual [arrive, keepsStatus_iff, keepsPort_iff]
  · rintro ms' rfl
    have hone : step (s.setSched (.arrive :: ms')) = .next (arrive ((s.setSched (.arrive :: ms')).setSched ms')) :=
      step_arrive rfl
    have hsecond : step (arrive (s.setSched (.arrive :: ms'))) =
        .next (arrive ((s.setSched (.arrive :: ms')).setSched ms')) := by
      rw [step_arrive (ms := ms') (by simp [arrive]), arrive_setSched, arrive_arrive]
    rw [core_run_succ 1 (step_arrive hs), core_run_succ 0 hsecond, hone]
    rfl

/-! ## Fair runs -/

/-- The rule behind both fairness statements: what stays true until `Q` meets `Q`, when `Q` comes in every run in which
it stays true forever. -/
theorem exists_exit_of_fair {P Q : Nat → Prop} {n : Nat} (hstart : P n) (hstay : ∀ m, P m → ¬Q m → P (m + 1))
    (hfair : (∀ m, n ≤ m → P m) → ∃ m, n ≤ m ∧ Q m) : ∃ m, n ≤ m ∧ P m ∧ Q m := by
  by_contra hnever
  push Not at hnever
  have hforever : ∀ m, n ≤ m → P m := fun m hm => by
    induction m, hm using Nat.le_induction with
    | base => exact hstart
    | succ m hm ih => exact hstay m ih (hnever m hm ih)
  obtain ⟨m, hm, hq⟩ := hfair hforever
  exact hnever m hm (hforever m hm) hq

/-- Settles O53: only its completion clears a busy latch (`busyLatchFollowsWriteAndCompletion`), and fairness brings it. -/
theorem busyPathIsEventuallyCompleted : Obligations.BusyPathIsEventuallyCompleted := by
  intro r hrun hfair p n hbusy
  have hstay (m : Nat) (hb : (r m).phyBusy p = true) (hno : nextMove (r m) ≠ .complete p) :
      (r (m + 1)).phyBusy p = true := by
    rw [← Bool.not_eq_false]
    exact fun hcleared => hno ((busyLatchFollowsWriteAndCompletion _ _ p (hrun m)).2 hb hcleared)
  obtain ⟨m, hnm, hb, hm⟩ := exists_exit_of_fair (Q := fun m => nextMove (r m) = .complete p) hbusy hstay (hfair p n)
  have hnext := Host.Outcome.next.inj ((hrun m).symm.trans (step_of_nextMove_complete hm hb))
  exact ⟨m, hnm, hb, hm, by simp [hnext], by simp [hnext]⟩

/-- Only its own enabled dispatch and INIT of its channel clear a pending latch (R33, R195, R196). -/
theorem step_pend (hp : s.pend e = true) (h : step s = .next t) :
    t.pend e = true ∨ (canDispatch s e = true ∧ ∃ d, nextMove s = .dispatch e d) ∨
      RunsCommand s (.init (if e = .busEv then .bus else .uart)) := by
  rcases step_cases h with ⟨-, -, rfl⟩ | ⟨hm, hd, payload, rest, i, hf, hdec, he⟩ |
    ⟨-, hd, payload, rest, why, -, -, rfl⟩ | ⟨e', d, hm, hc, rfl⟩ | ⟨e', d, -, -, rfl⟩ | ⟨p, -, -, rfl⟩ |
    ⟨p, -, -, rfl⟩ | ⟨-, rfl⟩
  case inr.inl =>
    cases hcleared : t.pend e with
    | true => exact .inl rfl
    | false =>
      have hruns : RunsCommand s i := ⟨hm, hd, payload, rest, hf, hdec⟩
      rcases (onlyTransmitArmsAndOnlyInitDisarms i _ t e he).2 (by simpa [acceptCommand] using hp) hcleared with
        ⟨rfl, rfl⟩ | ⟨rfl, rfl | rfl⟩ <;> exact .inr (.inr hruns)
  case inr.inr.inr.inl =>
    by_cases heq : e = e'
    · subst heq
      exact .inr (.inl ⟨hc, d, hm⟩)
    · exact .inl (by simpa [dispatch_pend, heq] using hp)
  all_goals exact .inl (by simp [acceptCommand, answerIllegal, arrive, hp])

theorem run_params {r : Nat → State} (hrun : IsRun r) (n : Nat) : (r n).params = (r 0).params := by
  induction n with
  | zero => rfl
  | succ n ih => exact (noStepChangesAParameter _ _ (hrun n)).trans ih

/-- Settles O54: until IE is 0 or `step_pend` names an exit the source stays pending, and under FREE that makes its
dispatch enabled, so fairness brings it. -/
theorem pendingSourceIsEventuallyServed : Obligations.PendingSourceIsEventuallyServed := by
  intro r hrun hfair hfree e n hpend
  refine exists_exit_of_fair (P := fun m => (r m).pend e = true) hpend (fun m hp hno => ?_) fun hforever => ?_
  · exact (step_pend hp (hrun m)).resolve_right fun hexit => hno (.inr hexit)
  · by_cases hmasked : ∃ m, n ≤ m ∧ (r m).ie = false
    · obtain ⟨m, hnm, hie⟩ := hmasked
      exact ⟨m, hnm, .inl hie⟩
    · have henabled (m : Nat) (hnm : n ≤ m) : canDispatch (r m) e = true := by
        have hie : (r m).ie = true := by
          rw [← Bool.not_eq_false]
          exact fun hoff => hmasked ⟨m, hnm, hoff⟩
        exact (canDispatch_iff _ e).mpr ⟨hie, hforever m hnm, arbAllowed_of_free (run_params hrun m ▸ hfree)⟩
      obtain ⟨m, d, hnm, hm⟩ := hfair e n henabled
      exact ⟨m, hnm, .inr (.inl ⟨henabled m hnm, d, hm⟩)⟩

end Sys2Proof.Machine
